-- ==== Sys2Proof/Word.lean ====
section
/-! DEFINITION. The widths of the unit: values, bytes, indices and command words (spec/10_state.md rules R8 to R12,
spec/00_scope.md rule R5). -/

namespace Sys2Proof

/-- One byte of a value, `B[k]` of rule R8. -/
abbrev Byte := BitVec 8

/-- A FixedPath256 value, 256 bits (R8). Bit `i` of the vector is bit index `i` of the value, which rule R10 allows
a model to take as its representation. Every pattern is valid. -/
abbrev Value := BitVec 256

/-- A bit index, height or start operand: 8 bits, unsigned (R2, R34). -/
abbrev Index := BitVec 8

/-- A command word `cw[31:0]` (R32). -/
abbrev CmdWord := BitVec 32

/-- The 12-bit status view (R19). -/
abbrev Status := BitVec 12

/-- `ZERO256`, the distinguished zero constant (R12). -/
def zero256 : Value := 0#256

end Sys2Proof
end

