-- ==== Sys2Proof/Config.lean ====
section
/-! DEFINITION. The implementation parameters of spec/00_scope.md rule R5 that are not widths. -/

namespace Sys2Proof

/-- The peer family of a 160-bit conversion: `a` is `F = 0`, `b` is `F = 1` (R32, R36). -/
inductive Family where
  | a
  | b
  deriving DecidableEq, Repr

/-- `W160_OFFSET[F]`: the byte index at which a 160-bit hash of family `F` sits inside a value. Rule R5 gives 12 for
both; the spec marks the number as its decision D11, from general knowledge (93_implementation_defined.md U1, G1).
PRESUMED, log entry 5, unsafe: the operations over the window take the offset as an argument, and the laws about
them are stated for every offset the spec allows, 0 to 12. -/
def Config.w160Offset : Family → Nat
  | .a => 12
  | .b => 12

/-- The largest offset the spec allows, so that offset + 20 <= 32 (92_eei_decisions.md, Open parameters). -/
def Config.w160OffsetMax : Nat := 12

end Sys2Proof
end

