-- ==== Sys2Proof/Syntax.lean ====
section
/-! DEFINITION. The instructions: one constructor per row of spec/opcode_table.json (spec/30_encoding.md rule R37),
so one per encodable form. A name that ends in `I` is the immediate form, one that ends in `X` the SR form (R33). -/

namespace Sys2Proof

/-- A path register number (R14, R35). -/
inductive PReg where
  | p0
  | p1
  | p2
  | p3
  deriving DecidableEq, Repr

/-- The twenty forms of rule R37. `ld256` and `ld160` also take the data-in value, which is no part of the command
word (R35) and stands in the state. -/
inductive Instr where
  | zero (rd : PReg)
  | ld256 (rd : PReg)
  | ld160 (f : Family) (rd : PReg)
  | st256 (rs1 : PReg)
  | st160 (f : Family) (rs1 : PReg)
  | getbitI (rs1 : PReg) (idx : Index)
  | getbitX (rs1 : PReg)
  | setbitI (rd : PReg) (idx : Index)
  | setbitX (rd : PReg)
  | clrbitI (rd : PReg) (idx : Index)
  | clrbitX (rd : PReg)
  | isrightI (rs1 : PReg) (idx : Index)
  | isrightX (rs1 : PReg)
  | iszero (rs1 : PReg)
  | forkh (rs1 rs2 : PReg)
  | parentI (rd rs1 : PReg) (idx : Index)
  | parentX (rd rs1 : PReg)
  | copybI (rd rs1 : PReg) (idx : Index)
  | copybX (rd rs1 : PReg)
  | cmp (rs1 rs2 : PReg)
  deriving DecidableEq, Repr

/-- The names of the twenty rows of rule R37, without operands. -/
inductive Form where
  | zero | ld256 | ld160 | st256 | st160
  | getbitI | getbitX | setbitI | setbitX | clrbitI | clrbitX | isrightI | isrightX | iszero
  | forkh | parentI | parentX | copybI | copybX
  | cmp
  deriving DecidableEq, Repr

/-- The eleven formats of rule R33. -/
inductive Format where
  | d | df | s | sf | si | sx | di | dx | ss | dsi | dsx
  deriving DecidableEq, Repr

/-- The eight fields of a command word (R32), as bits. -/
structure Fields where
  op  : BitVec 8
  rd  : BitVec 2
  rs1 : BitVec 2
  rs2 : BitVec 2
  x   : BitVec 1
  f   : BitVec 1
  idx : BitVec 8
  z   : BitVec 8
  deriving DecidableEq, Repr

end Sys2Proof
end

