-- ==== Sys2Proof/WellFormed.lean ====
section
/-! DEFINITION. When the fields of a command word are those of a legal command (spec/30_encoding.md rules R33 and
R38). A term of `Instr` is well formed by its type; what can be ill formed is the word it is written in. -/

namespace Sys2Proof

/-- Which fields a format uses, and the value its `X` bit holds (the table of R33). `Z` is never used. -/
structure FieldUse where
  rd  : Bool
  rs1 : Bool
  rs2 : Bool
  x   : BitVec 1
  f   : Bool
  idx : Bool
  deriving DecidableEq, Repr

/-- The table of rule R33. -/
def Format.fieldUse : Format → FieldUse
  | .d   => { rd := true,  rs1 := false, rs2 := false, x := 0#1, f := false, idx := false }
  | .df  => { rd := true,  rs1 := false, rs2 := false, x := 0#1, f := true,  idx := false }
  | .s   => { rd := false, rs1 := true,  rs2 := false, x := 0#1, f := false, idx := false }
  | .sf  => { rd := false, rs1 := true,  rs2 := false, x := 0#1, f := true,  idx := false }
  | .si  => { rd := false, rs1 := true,  rs2 := false, x := 0#1, f := false, idx := true }
  | .sx  => { rd := false, rs1 := true,  rs2 := false, x := 1#1, f := false, idx := false }
  | .di  => { rd := true,  rs1 := false, rs2 := false, x := 0#1, f := false, idx := true }
  | .dx  => { rd := true,  rs1 := false, rs2 := false, x := 1#1, f := false, idx := false }
  | .ss  => { rd := false, rs1 := true,  rs2 := true,  x := 0#1, f := false, idx := false }
  | .dsi => { rd := true,  rs1 := true,  rs2 := false, x := 0#1, f := false, idx := true }
  | .dsx => { rd := true,  rs1 := true,  rs2 := false, x := 1#1, f := false, idx := false }

/-- The format column of rule R37. -/
def Form.format : Form → Format
  | .zero => .d
  | .ld256 => .d
  | .ld160 => .df
  | .st256 => .s
  | .st160 => .sf
  | .getbitI => .si
  | .getbitX => .sx
  | .setbitI => .di
  | .setbitX => .dx
  | .clrbitI => .di
  | .clrbitX => .dx
  | .isrightI => .si
  | .isrightX => .sx
  | .iszero => .s
  | .forkh => .ss
  | .parentI => .dsi
  | .parentX => .dsx
  | .copybI => .dsi
  | .copybX => .dsx
  | .cmp => .ss

/-- The OP column of rule R37. -/
def Form.op : Form → BitVec 8
  | .zero => 0x10#8
  | .ld256 => 0x11#8
  | .ld160 => 0x12#8
  | .st256 => 0x13#8
  | .st160 => 0x14#8
  | .getbitI | .getbitX => 0x20#8
  | .setbitI | .setbitX => 0x21#8
  | .clrbitI | .clrbitX => 0x22#8
  | .isrightI | .isrightX => 0x23#8
  | .iszero => 0x24#8
  | .forkh => 0x30#8
  | .parentI | .parentX => 0x31#8
  | .copybI | .copybX => 0x32#8
  | .cmp => 0x40#8

/-- The twenty forms, in the order of rule R37's rows. -/
def Form.all : List Form :=
  [.zero, .ld256, .ld160, .st256, .st160,
   .getbitI, .getbitX, .setbitI, .setbitX, .clrbitI, .clrbitX, .isrightI, .isrightX, .iszero,
   .forkh, .parentI, .parentX, .copybI, .copybX, .cmp]

/-- An operand field of `w` bits that the format does not use is zero (R33). -/
def unusedZero {w : Nat} (used : Bool) (field : BitVec w) : Bool := used || field == 0#w

/-- The fields `g` are those of some command of form `r`: its opcode, its `X` bit, every unused field zero (which
makes `IDX` zero in the SR form), and `Z` zero (R33). -/
def Form.admits (r : Form) (g : Fields) : Bool :=
  g.op == r.op
    && unusedZero r.format.fieldUse.rd g.rd
    && unusedZero r.format.fieldUse.rs1 g.rs1
    && unusedZero r.format.fieldUse.rs2 g.rs2
    && g.x == r.format.fieldUse.x
    && unusedZero r.format.fieldUse.f g.f
    && unusedZero r.format.fieldUse.idx g.idx
    && g.z == 0#8

/-- The fields are those of a legal command: some form admits them (R33, R38). -/
def Fields.wellFormed (g : Fields) : Bool := Form.all.any (fun r => r.admits g)

end Sys2Proof
end

