-- ==== Sys2Proof/Decode.lean ====
section
/-! DEFINITION. Decoding and encoding of command words (spec/30_encoding.md rules R32 to R39). -/

namespace Sys2Proof

/-- Register number `n` names `P[n]` (R35). -/
def PReg.ofBits (n : BitVec 2) : PReg :=
  if n = 0#2 then .p0 else if n = 1#2 then .p1 else if n = 2#2 then .p2 else .p3

/-- The number of a register (R35). -/
def PReg.toBits : PReg → BitVec 2
  | .p0 => 0#2
  | .p1 => 1#2
  | .p2 => 2#2
  | .p3 => 3#2

/-- `F = 0` is family A, `F = 1` family B (R32). -/
def Family.ofBit (f : BitVec 1) : Family := if f = 0#1 then .a else .b

/-- The family bit (R32). -/
def Family.toBit : Family → BitVec 1
  | .a => 0#1
  | .b => 1#1

/-- The fields of a word (R32). -/
def Fields.ofWord (cw : CmdWord) : Fields where
  op  := cw.extractLsb' 0 8
  rd  := cw.extractLsb' 8 2
  rs1 := cw.extractLsb' 10 2
  rs2 := cw.extractLsb' 12 2
  x   := cw.extractLsb' 14 1
  f   := cw.extractLsb' 15 1
  idx := cw.extractLsb' 16 8
  z   := cw.extractLsb' 24 8

/-- The word with given fields: `OP` in the lowest bits, `Z` in the highest (R32). -/
def Fields.toWord (g : Fields) : CmdWord :=
  g.z ++ (g.idx ++ (g.f ++ (g.x ++ (g.rs2 ++ (g.rs1 ++ (g.rd ++ g.op))))))

/-- One row of rule R37: a word is of this form exactly when `(cw AND mask) == pattern`. -/
structure Row where
  form    : Form
  mask    : CmdWord
  pattern : CmdWord
  deriving DecidableEq, Repr

/-- The mask and match columns of rule R37, row by row. -/
def Form.row : Form → Row
  | .zero     => ⟨.zero,     0xFFFFFCFF#32, 0x00000010#32⟩
  | .ld256    => ⟨.ld256,    0xFFFFFCFF#32, 0x00000011#32⟩
  | .ld160    => ⟨.ld160,    0xFFFF7CFF#32, 0x00000012#32⟩
  | .st256    => ⟨.st256,    0xFFFFF3FF#32, 0x00000013#32⟩
  | .st160    => ⟨.st160,    0xFFFF73FF#32, 0x00000014#32⟩
  | .getbitI  => ⟨.getbitI,  0xFF00F3FF#32, 0x00000020#32⟩
  | .getbitX  => ⟨.getbitX,  0xFFFFF3FF#32, 0x00004020#32⟩
  | .setbitI  => ⟨.setbitI,  0xFF00FCFF#32, 0x00000021#32⟩
  | .setbitX  => ⟨.setbitX,  0xFFFFFCFF#32, 0x00004021#32⟩
  | .clrbitI  => ⟨.clrbitI,  0xFF00FCFF#32, 0x00000022#32⟩
  | .clrbitX  => ⟨.clrbitX,  0xFFFFFCFF#32, 0x00004022#32⟩
  | .isrightI => ⟨.isrightI, 0xFF00F3FF#32, 0x00000023#32⟩
  | .isrightX => ⟨.isrightX, 0xFFFFF3FF#32, 0x00004023#32⟩
  | .iszero   => ⟨.iszero,   0xFFFFF3FF#32, 0x00000024#32⟩
  | .forkh    => ⟨.forkh,    0xFFFFC3FF#32, 0x00000030#32⟩
  | .parentI  => ⟨.parentI,  0xFF00F0FF#32, 0x00000031#32⟩
  | .parentX  => ⟨.parentX,  0xFFFFF0FF#32, 0x00004031#32⟩
  | .copybI   => ⟨.copybI,   0xFF00F0FF#32, 0x00000032#32⟩
  | .copybX   => ⟨.copybX,   0xFFFFF0FF#32, 0x00004032#32⟩
  | .cmp      => ⟨.cmp,      0xFFFFC3FF#32, 0x00000040#32⟩

/-- The word satisfies the row (R37). -/
def Row.matchesWord (r : Row) (cw : CmdWord) : Bool := (cw &&& r.mask) == r.pattern

/-- The instruction of a form with the operands its format takes from the fields (R33, R39 step 3). -/
def Form.build (r : Form) (g : Fields) : Instr :=
  match r with
  | .zero     => .zero (.ofBits g.rd)
  | .ld256    => .ld256 (.ofBits g.rd)
  | .ld160    => .ld160 (.ofBit g.f) (.ofBits g.rd)
  | .st256    => .st256 (.ofBits g.rs1)
  | .st160    => .st160 (.ofBit g.f) (.ofBits g.rs1)
  | .getbitI  => .getbitI (.ofBits g.rs1) g.idx
  | .getbitX  => .getbitX (.ofBits g.rs1)
  | .setbitI  => .setbitI (.ofBits g.rd) g.idx
  | .setbitX  => .setbitX (.ofBits g.rd)
  | .clrbitI  => .clrbitI (.ofBits g.rd) g.idx
  | .clrbitX  => .clrbitX (.ofBits g.rd)
  | .isrightI => .isrightI (.ofBits g.rs1) g.idx
  | .isrightX => .isrightX (.ofBits g.rs1)
  | .iszero   => .iszero (.ofBits g.rs1)
  | .forkh    => .forkh (.ofBits g.rs1) (.ofBits g.rs2)
  | .parentI  => .parentI (.ofBits g.rd) (.ofBits g.rs1) g.idx
  | .parentX  => .parentX (.ofBits g.rd) (.ofBits g.rs1)
  | .copybI   => .copybI (.ofBits g.rd) (.ofBits g.rs1) g.idx
  | .copybX   => .copybX (.ofBits g.rd) (.ofBits g.rs1)
  | .cmp      => .cmp (.ofBits g.rs1) (.ofBits g.rs2)

/-- Why a word is illegal, in the order of rule R38's list. The machine treats the four alike: one exception, with no
cause code (R65, R68). -/
inductive IllegalWord where
  /-- `OP` is none of the fourteen. -/
  | unknownOp
  /-- A listed `OP` with non-zero `Z`. -/
  | nonzeroZ
  /-- A listed `OP`, `Z = 0`, `X = 1` on an indexed instruction and a non-zero `IDX`. -/
  | srFormWithIdx
  /-- A listed `OP` and `Z = 0`, with a non-zero unused field. -/
  | nonzeroUnused
  deriving DecidableEq, Repr

/-- The opcode is that of an indexed instruction, which has an SR form (R33). -/
def hasSrForm (op : BitVec 8) : Bool :=
  Form.all.any (fun r => r.op == op && r.format.fieldUse.x == 1#1)

/-- The first of R38's reasons that holds of an illegal word's fields. -/
def Fields.whyIllegal (g : Fields) : IllegalWord :=
  if Form.all.all (fun r => r.op != g.op) then .unknownOp
  else if g.z ≠ 0#8 then .nonzeroZ
  else if g.x = 1#1 ∧ g.idx ≠ 0#8 ∧ hasSrForm g.op = true then .srFormWithIdx
  else .nonzeroUnused

/-- Step 1 of rule R39: the row of R37 the word satisfies, and its instruction; an illegal word is refused by name. -/
def decode (cw : CmdWord) : Except IllegalWord Instr :=
  match Form.all.find? (fun r => r.row.matchesWord cw) with
  | some r => .ok (r.build (Fields.ofWord cw))
  | none   => .error (Fields.ofWord cw).whyIllegal

/-- The fields a command sets, from the "fields set" column of rule R40 and the formats of R33: all other fields are
zero. -/
def Instr.fields : Instr → Fields
  | .zero rd         => ⟨0x10#8, rd.toBits, 0#2, 0#2, 0#1, 0#1, 0#8, 0#8⟩
  | .ld256 rd        => ⟨0x11#8, rd.toBits, 0#2, 0#2, 0#1, 0#1, 0#8, 0#8⟩
  | .ld160 f rd      => ⟨0x12#8, rd.toBits, 0#2, 0#2, 0#1, f.toBit, 0#8, 0#8⟩
  | .st256 rs        => ⟨0x13#8, 0#2, rs.toBits, 0#2, 0#1, 0#1, 0#8, 0#8⟩
  | .st160 f rs      => ⟨0x14#8, 0#2, rs.toBits, 0#2, 0#1, f.toBit, 0#8, 0#8⟩
  | .getbitI rs n    => ⟨0x20#8, 0#2, rs.toBits, 0#2, 0#1, 0#1, n, 0#8⟩
  | .getbitX rs      => ⟨0x20#8, 0#2, rs.toBits, 0#2, 1#1, 0#1, 0#8, 0#8⟩
  | .setbitI rd n    => ⟨0x21#8, rd.toBits, 0#2, 0#2, 0#1, 0#1, n, 0#8⟩
  | .setbitX rd      => ⟨0x21#8, rd.toBits, 0#2, 0#2, 1#1, 0#1, 0#8, 0#8⟩
  | .clrbitI rd n    => ⟨0x22#8, rd.toBits, 0#2, 0#2, 0#1, 0#1, n, 0#8⟩
  | .clrbitX rd      => ⟨0x22#8, rd.toBits, 0#2, 0#2, 1#1, 0#1, 0#8, 0#8⟩
  | .isrightI rs n   => ⟨0x23#8, 0#2, rs.toBits, 0#2, 0#1, 0#1, n, 0#8⟩
  | .isrightX rs     => ⟨0x23#8, 0#2, rs.toBits, 0#2, 1#1, 0#1, 0#8, 0#8⟩
  | .iszero rs       => ⟨0x24#8, 0#2, rs.toBits, 0#2, 0#1, 0#1, 0#8, 0#8⟩
  | .forkh rs rt     => ⟨0x30#8, 0#2, rs.toBits, rt.toBits, 0#1, 0#1, 0#8, 0#8⟩
  | .parentI rd rs n => ⟨0x31#8, rd.toBits, rs.toBits, 0#2, 0#1, 0#1, n, 0#8⟩
  | .parentX rd rs   => ⟨0x31#8, rd.toBits, rs.toBits, 0#2, 1#1, 0#1, 0#8, 0#8⟩
  | .copybI rd rs n  => ⟨0x32#8, rd.toBits, rs.toBits, 0#2, 0#1, 0#1, n, 0#8⟩
  | .copybX rd rs    => ⟨0x32#8, rd.toBits, rs.toBits, 0#2, 1#1, 0#1, 0#8, 0#8⟩
  | .cmp rs rt       => ⟨0x40#8, 0#2, rs.toBits, rt.toBits, 0#1, 0#1, 0#8, 0#8⟩

/-- The command word of an instruction (R33: every legal command has exactly one). -/
def encode (i : Instr) : CmdWord := i.fields.toWord

/-- What the decoder reads from the low `nbits` bits of `w`, bit 0 of the number being `cw[0]` (R25, R32). The bits
above `nbits` are zero; a number too wide for a command word names no instruction. -/
def decodeTableWord (nbits w : Nat) : Option Instr :=
  let n := w % 2 ^ nbits
  if n < 2 ^ 32 then
    match decode (BitVec.ofNat 32 n) with
    | .ok i    => some i
    | .error _ => none
  else none

/-- The pseudo-instruction `MOV Pd, Ps` (R41). -/
def Instr.mov (rd rs : PReg) : Instr := .copybI rd rs 0#8

end Sys2Proof
end

