-- ==== Sys2Proof/Machine/State.lean ====
section
/-! DEFINITION. The state of the unit (spec/10_state.md rules R14 to R21), what is on its ports (spec/20_memory.md
rules R30 and R31), and the reasons a step could stop. -/

namespace Sys2Proof.Machine

/-- No fault exists: the one exception of the unit, IllegalCommand, sets a flag and the unit goes on (60_exceptions.md
R65, R69), and no instruction can fail (R66). So this type has no constructor. DEDUCED, log entry 4; safe. -/
inductive Fault where
  deriving DecidableEq, Repr

/-- Why a step has no meaning. -/
inductive Refusal where
  /-- Raised by `exec`'s arm of an instruction that has no meaning yet (safe); no arm raises it now. -/
  | notModelled (mnemonic : String)
  deriving DecidableEq, Repr

/-- The response record of rule R31. -/
structure Response where
  err    : Bool
  status : Status
  data   : Value
  deriving DecidableEq, Repr

/-- What the host does next: present a command word with a data-in value, or reset the unit between two commands
(R28, R74; 93_implementation_defined.md U7). DESIGN CHOICE, log entry 1; safe. -/
inductive HostEvent where
  | command (cw : CmdWord) (din : Value)
  | reset
  deriving DecidableEq, Repr

/-- The state: the tuple of rule R20 (`p0` to `ill`), then the model's own fields for the ports (R30, R31): the data-in
value sampled with the last accepted command, the response of the last step if it answered a command, and what the host
will present, oldest first. -/
structure State where
  p0   : Value
  p1   : Value
  p2   : Value
  p3   : Value
  sr   : BitVec 8
  lt   : Bool
  eq   : Bool
  gt   : Bool
  ill  : Bool
  din  : Value
  rsp  : Option Response
  host : List HostEvent
  deriving DecidableEq, Repr

/-- The unit right after reset (R21), no response on the ports (R74), nothing presented yet (log entries 1, 3). -/
def State.reset : State where
  p0   := zero256
  p1   := zero256
  p2   := zero256
  p3   := zero256
  sr   := 0#8
  lt   := false
  eq   := false
  gt   := false
  ill  := false
  din  := 0#256
  rsp  := none
  host := []

end Sys2Proof.Machine
end

