-- ==== Sys2Proof/Machine/Value.lean ====
section
/-! DEFINITION. The operations on values, each as the spec's own pseudocode writes it: bytes and bits
(spec/10_state.md rules R8 to R10), construction and conversion (spec/40_construct_convert.md), bit access
(spec/41_bit_access.md), path algorithms (spec/42_path.md), the order (spec/43_ordering.md). -/

namespace Sys2Proof.Machine

/-- `byte(v, k)`, that is `V[8k+7 : 8k]` (R8, R10). -/
def byteAt (v : Value) (k : Nat) : Byte := v.extractLsb' (8 * k) 8

/-- The number whose base-256 digits are the first `n` bytes of `t` (the sum of R10). -/
def bytesNumber (t : Nat → Byte) : Nat → Nat
  | 0     => 0
  | n + 1 => bytesNumber t n + 2 ^ (8 * n) * (t n).toNat

/-- `N(v)` as R10 sums it over the 32 bytes. -/
def number (v : Value) : Nat := bytesNumber (byteAt v) 32

/-- The value whose 32 bytes are `t 0` to `t 31` (R8, R10). -/
def ofBytes (t : Nat → Byte) : Value := BitVec.ofNat 256 (bytesNumber t 32)

/-- `bit(v, i)` (R9): bit `i mod 8` of byte `i div 8`. -/
def bitAt (v : Value) (i : Nat) : Bool := (byteAt v (i / 8) >>> (i % 8)) &&& 1#8 == 1#8

/-- The effect of SETBIT on a value: one byte changes (R50). -/
def setBit (v : Value) (i : Index) : Value :=
  ofBytes fun k =>
    if k = i.toNat / 8 then byteAt v k ||| (1#8 <<< (i.toNat % 8)) else byteAt v k

/-- The effect of CLRBIT on a value: one byte changes (R51). -/
def clearBit (v : Value) (i : Index) : Value :=
  ofBytes fun k =>
    if k = i.toNat / 8 then byteAt v k &&& ~~~(1#8 <<< (i.toNat % 8)) else byteAt v k

/-- `is_zero`: the value is the zero constant (R53). -/
def isZero (v : Value) : Bool := v == zero256

/-- The scan of R55 from position `n - 1` down to 0: the first position where the values differ, else 0. -/
def forkScan (a b : Value) : Nat → Nat
  | 0     => 0
  | n + 1 => if bitAt a n != bitAt b n then n else forkScan a b n

/-- `fork_height(a, b)` (R55): the scan from position 255. -/
def forkHeight (a b : Value) : Index := BitVec.ofNat 8 (forkScan a b 256)

/-- `copy_bits(v, start)` with the partial-byte mask of R57. -/
def copyBits (v : Value) (start : Index) : Value :=
  ofBytes fun k =>
    if k < start.toNat / 8 then 0x00#8
    else if k = start.toNat / 8 then byteAt v k &&& (0xFF#8 <<< (start.toNat % 8))
    else byteAt v k

/-- `parent_path(v, height)` (R58); `height + 1` is formed only where it does not wrap (R7). -/
def parentPath (v : Value) (height : Index) : Value :=
  if height = 255#8 then zero256 else copyBits v (height + 1#8)

/-- The common ancestor prefix of two paths: the parent path at their fork height (R60 item 4, and the glossary's
"parent path" in spec/00_scope.md). FORKH followed by the SR form of PARENT computes it (R77). -/
def commonAncestor (a b : Value) : Value := parentPath a (forkHeight a b)

/-- The padder of R44: the 20 bytes on `d[159:0]` at byte offset `off`, every other byte zero. -/
def widen160 (off : Nat) (d : Value) : Value :=
  ofBytes fun k => if off ≤ k ∧ k < off + 20 then byteAt d (k - off) else 0x00#8

/-- The truncator of R46: the 20 bytes at byte offset `off` on bits `159:0`, the rest zero. -/
def narrow160 (off : Nat) (v : Value) : Value :=
  ofBytes fun j => if j < 20 then byteAt v (off + j) else 0x00#8

end Sys2Proof.Machine
end

