-- ==== Sys2Proof/Machine/Ops.lean ====
section
/-! DEFINITION. The named operations over the state: the path registers (spec/10_state.md rule R14), the host's events
(spec/20_memory.md rules R28 and R31), the response of a command (R31) and taking the one exception
(spec/60_exceptions.md rule R65). -/

namespace Sys2Proof.Machine

/-- `P[r]` (R14). -/
def State.getP (s : State) : PReg → Value
  | .p0 => s.p0
  | .p1 => s.p1
  | .p2 => s.p2
  | .p3 => s.p3

/-- `P[r] <- v` (R14, R15). -/
def State.setP (s : State) (r : PReg) (v : Value) : State :=
  match r with
  | .p0 => { s with p0 := v }
  | .p1 => { s with p1 := v }
  | .p2 => { s with p2 := v }
  | .p3 => { s with p3 := v }

/-- `SR <- v` (R16). -/
def State.setSR (s : State) (v : BitVec 8) : State := { s with sr := v }

/-- `STATUS`, the view of `SR`, `LT`, `EQ`, `GT` and `ILL` (R19). -/
def State.status (s : State) : Status :=
  BitVec.ofBool s.ill ++ (BitVec.ofBool s.gt ++ (BitVec.ofBool s.eq ++ (BitVec.ofBool s.lt ++ s.sr)))

/-- The end of a legal command (R31, R39 step 3): the response, with the status of the state after it. -/
def State.respond (s : State) (data : Value) : State :=
  { s with rsp := some { err := false, status := s.status, data := data } }

/-- The end of a legal command without a `DataOut`: the response data is zero (R31). -/
def State.complete (s : State) : State := s.respond 0#256

/-- TAKING AN EXCEPTION. IllegalCommand (R65, R39 step 2): `ILL <- 1`, the response has `err = 1` and data zero, and
nothing else changes. Nothing is saved and nothing is entered (R69), so there is no return (R70). -/
def State.raiseIllegalCommand (s : State) : State :=
  let t := { s with ill := true }
  { t with rsp := some { err := true, status := t.status, data := 0#256 } }

/-- The host presents a command: its event leaves the list and `cmd_data` is sampled (R31). -/
def State.accept (s : State) (din : Value) (rest : List HostEvent) : State :=
  { s with din := din, host := rest }

/-- Reset between two commands (R74): every state element takes its reset value, no response; what the host will
present next is the host's and stays. -/
def State.resetUnit (rest : List HostEvent) : State := { State.reset with host := rest }

/-- No command is presented: the unit holds its state (R73) and no response is on the ports (R31). -/
def State.idle (s : State) : State := { s with rsp := none }

/-- The host presents the low `nbits` bits of `w` as the very next command, with the data-in value the state already
holds for the port. Whatever the host was to present comes after it. -/
def State.present (s : State) (nbits w : Nat) : State :=
  { s with host := .command (BitVec.ofNat 32 (w % 2 ^ nbits)) s.din :: s.host }

end Sys2Proof.Machine
end

