-- ==== Sys2Proof/Machine/Operands.lean ====
section
/-! DEFINITION. The operand forms (spec/30_encoding.md rules R34 and R36). -/

namespace Sys2Proof.Machine

/-- Where the index operand comes from: the immediate field, or `SR` (the `X` bit, R32, R34). -/
inductive IndexSource where
  | imm (n : Index)
  | scalar
  deriving DecidableEq, Repr

/-- `idx` of R34: the immediate as it stands, or what `SR` holds before the command. -/
def IndexSource.value (x : IndexSource) (s : State) : Index :=
  match x with
  | .imm n  => n
  | .scalar => s.sr

/-- A truth value as `SR` holds it: 0x01 or 0x00 (R16). -/
def boolByte (b : Bool) : BitVec 8 := if b then 0x01#8 else 0x00#8

/-- The byte offset of a family's 160-bit window (R36, R44, R46). -/
def window (f : Family) : Nat := Config.w160Offset f

end Sys2Proof.Machine
end

