-- ==== Sys2Proof/Machine/BitAccess.lean ====
section
/-! DEFINITION. Bit accessors: GETBIT, SETBIT, CLRBIT, ISRIGHT, ISZERO (spec/41_bit_access.md). -/

namespace Sys2Proof.Machine

/-- The shared effect of GETBIT and ISRIGHT (R49, R52): the addressed bit of `P[rs1]` goes to `SR`. -/
def readBit (rs1 : PReg) (x : IndexSource) (s : State) : State :=
  (s.setSR (boolByte (bitAt (s.getP rs1) (x.value s).toNat))).complete

/-- The shared effect of SETBIT's forms (R50). -/
def writeOne (rd : PReg) (x : IndexSource) (s : State) : State :=
  (s.setP rd (setBit (s.getP rd) (x.value s))).complete

/-- The shared effect of CLRBIT's forms (R51). -/
def writeZero (rd : PReg) (x : IndexSource) (s : State) : State :=
  (s.setP rd (clearBit (s.getP rd) (x.value s))).complete

/-- GETBIT, immediate form (R49). -/
def execGetbitI (rs1 : PReg) (n : Index) (s : State) : Host.Outcome State Fault Refusal :=
  .next (readBit rs1 (.imm n) s)

/-- GETBIT, SR form (R49). -/
def execGetbitX (rs1 : PReg) (s : State) : Host.Outcome State Fault Refusal :=
  .next (readBit rs1 .scalar s)

/-- SETBIT, immediate form (R50). -/
def execSetbitI (rd : PReg) (n : Index) (s : State) : Host.Outcome State Fault Refusal :=
  .next (writeOne rd (.imm n) s)

/-- SETBIT, SR form (R50). -/
def execSetbitX (rd : PReg) (s : State) : Host.Outcome State Fault Refusal :=
  .next (writeOne rd .scalar s)

/-- CLRBIT, immediate form (R51). -/
def execClrbitI (rd : PReg) (n : Index) (s : State) : Host.Outcome State Fault Refusal :=
  .next (writeZero rd (.imm n) s)

/-- CLRBIT, SR form (R51). -/
def execClrbitX (rd : PReg) (s : State) : Host.Outcome State Fault Refusal :=
  .next (writeZero rd .scalar s)

/-- ISRIGHT, immediate form (R52): the effect of GETBIT under its path name. -/
def execIsrightI (rs1 : PReg) (n : Index) (s : State) : Host.Outcome State Fault Refusal :=
  .next (readBit rs1 (.imm n) s)

/-- ISRIGHT, SR form (R52). -/
def execIsrightX (rs1 : PReg) (s : State) : Host.Outcome State Fault Refusal :=
  .next (readBit rs1 .scalar s)

/-- ISZERO (R53). -/
def execIszero (rs1 : PReg) (s : State) : Host.Outcome State Fault Refusal :=
  .next (s.setSR (boolByte (isZero (s.getP rs1)))).complete

end Sys2Proof.Machine
end

