-- ==== Sys2Proof/Machine/Construct.lean ====
section
/-! DEFINITION. Construction and conversion: ZERO, LD256, LD160, ST256, ST160 (spec/40_construct_convert.md). -/

namespace Sys2Proof.Machine

/-- ZERO (R42). -/
def execZero (rd : PReg) (s : State) : Host.Outcome State Fault Refusal :=
  .next (s.setP rd zero256).complete

/-- LD256 (R43): the bit-for-bit copy of the data-in port, for a raw array and for both families (R48). -/
def execLd256 (rd : PReg) (s : State) : Host.Outcome State Fault Refusal :=
  .next (s.setP rd s.din).complete

/-- LD160 (R44). -/
def execLd160 (f : Family) (rd : PReg) (s : State) : Host.Outcome State Fault Refusal :=
  .next (s.setP rd (widen160 (window f) s.din)).complete

/-- ST256 (R45): no state changes; the value is the response data. -/
def execSt256 (rs1 : PReg) (s : State) : Host.Outcome State Fault Refusal :=
  .next (s.respond (s.getP rs1))

/-- ST160 (R46): no state changes; the narrowed value is the response data. -/
def execSt160 (f : Family) (rs1 : PReg) (s : State) : Host.Outcome State Fault Refusal :=
  .next (s.respond (narrow160 (window f) (s.getP rs1)))

end Sys2Proof.Machine
end

