-- ==== Sys2Proof/Machine/Flags.lean ====
section
/-! DEFINITION. The order flags (spec/10_state.md rule R17, spec/43_ordering.md rule R62). -/

namespace Sys2Proof.Machine

/-- A triple `(lt, eq, gt)`, the form of `CC` and of a comparator's outputs (R17, R62, R64). -/
structure Order3 where
  lt : Bool
  eq : Bool
  gt : Bool
  deriving DecidableEq, Repr

/-- The three comparisons of R62, on the numbers `N(a)` and `N(b)`. -/
def compareValues (a b : Value) : Order3 where
  lt := decide (number a < number b)
  eq := decide (number a = number b)
  gt := decide (number b < number a)

/-- `CC <- c` (R62). -/
def State.setCC (s : State) (c : Order3) : State := { s with lt := c.lt, eq := c.eq, gt := c.gt }

end Sys2Proof.Machine
end

