-- ==== Sys2Proof/Machine/Ordering.lean ====
section
/-! DEFINITION. Ordering: CMP (spec/43_ordering.md). -/

namespace Sys2Proof.Machine

/-- CMP (R62). -/
def execCmp (rs1 rs2 : PReg) (s : State) : Host.Outcome State Fault Refusal :=
  .next (s.setCC (compareValues (s.getP rs1) (s.getP rs2))).complete

end Sys2Proof.Machine
end

