-- ==== Sys2Proof/Machine/Path.lean ====
section
/-! DEFINITION. Path algorithms: FORKH, PARENT, COPYB (spec/42_path.md). -/

namespace Sys2Proof.Machine

/-- The shared effect of PARENT's forms (R58). -/
def deriveParent (rd rs1 : PReg) (x : IndexSource) (s : State) : State :=
  (s.setP rd (parentPath (s.getP rs1) (x.value s))).complete

/-- The shared effect of COPYB's forms (R57). -/
def copyPrefix (rd rs1 : PReg) (x : IndexSource) (s : State) : State :=
  (s.setP rd (copyBits (s.getP rs1) (x.value s))).complete

/-- FORKH (R55). -/
def execForkh (rs1 rs2 : PReg) (s : State) : Host.Outcome State Fault Refusal :=
  .next (s.setSR (forkHeight (s.getP rs1) (s.getP rs2))).complete

/-- PARENT, immediate form (R58). -/
def execParentI (rd rs1 : PReg) (n : Index) (s : State) : Host.Outcome State Fault Refusal :=
  .next (deriveParent rd rs1 (.imm n) s)

/-- PARENT, SR form (R58). -/
def execParentX (rd rs1 : PReg) (s : State) : Host.Outcome State Fault Refusal :=
  .next (deriveParent rd rs1 .scalar s)

/-- COPYB, immediate form (R57). -/
def execCopybI (rd rs1 : PReg) (n : Index) (s : State) : Host.Outcome State Fault Refusal :=
  .next (copyPrefix rd rs1 (.imm n) s)

/-- COPYB, SR form (R57). -/
def execCopybX (rd rs1 : PReg) (s : State) : Host.Outcome State Fault Refusal :=
  .next (copyPrefix rd rs1 .scalar s)

end Sys2Proof.Machine
end

