-- ==== Sys2Proof/Machine/Dispatch.lean ====
section
/-! DEFINITION. One arm per instruction form (spec/30_encoding.md rules R37 and R39 step 3). -/

namespace Sys2Proof.Machine

def exec (i : Instr) (s : State) : Host.Outcome State Fault Refusal :=
  match i with
  | .zero rd => Sys2Proof.Machine.execZero rd s
  | .ld256 rd => Sys2Proof.Machine.execLd256 rd s
  | .ld160 f rd => Sys2Proof.Machine.execLd160 f rd s
  | .st256 rs1 => Sys2Proof.Machine.execSt256 rs1 s
  | .st160 f rs1 => Sys2Proof.Machine.execSt160 f rs1 s
  | .getbitI rs1 idx => Sys2Proof.Machine.execGetbitI rs1 idx s
  | .getbitX rs1 => Sys2Proof.Machine.execGetbitX rs1 s
  | .setbitI rd idx => Sys2Proof.Machine.execSetbitI rd idx s
  | .setbitX rd => Sys2Proof.Machine.execSetbitX rd s
  | .clrbitI rd idx => Sys2Proof.Machine.execClrbitI rd idx s
  | .clrbitX rd => Sys2Proof.Machine.execClrbitX rd s
  | .isrightI rs1 idx => Sys2Proof.Machine.execIsrightI rs1 idx s
  | .isrightX rs1 => Sys2Proof.Machine.execIsrightX rs1 s
  | .iszero rs1 => Sys2Proof.Machine.execIszero rs1 s
  | .forkh rs1 rs2 => Sys2Proof.Machine.execForkh rs1 rs2 s
  | .parentI rd rs1 idx => Sys2Proof.Machine.execParentI rd rs1 idx s
  | .parentX rd rs1 => Sys2Proof.Machine.execParentX rd rs1 s
  | .copybI rd rs1 idx => Sys2Proof.Machine.execCopybI rd rs1 idx s
  | .copybX rd rs1 => Sys2Proof.Machine.execCopybX rd rs1 s
  | .cmp rs1 rs2 => Sys2Proof.Machine.execCmp rs1 rs2 s

end Sys2Proof.Machine
end

