-- ==== Sys2Proof/Machine/Step.lean ====
section
/-! DEFINITION. `Step` (spec/30_encoding.md rule R39) and one step of the unit over what the host presents
(spec/20_memory.md rule R28, spec/70_reset_and_hazards.md rule R74). -/

namespace Sys2Proof.Machine

/-- The behaviour of one command word on a state whose `din` holds the data-in value (R39): decode, then the
instruction, or IllegalCommand. -/
def runCommand (cw : CmdWord) (s : State) : Host.Outcome State Fault Refusal :=
  match decode cw with
  | .ok i    => exec i s
  | .error _ => .next s.raiseIllegalCommand

/-- One step: the host's next event, reset before anything else (R68), or nothing where the host presents nothing. -/
def step (s : State) : Host.Outcome State Fault Refusal :=
  match s.host with
  | []                      => .next s.idle
  | .reset :: rest          => .next (State.resetUnit rest)
  | .command cw din :: rest => runCommand cw (s.accept din rest)

/-- The state in which `step` runs exactly the given word next: the host presents it (log entry 2). -/
def State.withFetchWord (s : State) (nbits w : Nat) : State := s.present nbits w

end Sys2Proof.Machine
end

