-- ==== Sys2Proof/Machine/Assembler.lean ====
section
/-! DEFINITION. The assembler syntax (spec/30_encoding.md rule R40) and the pseudo-instruction MOV (R41): lines of
characters to parsed lines, parsed lines to instructions with the data-in value of a load. Log entry 12. -/

namespace Sys2Proof.Machine

/-- The mnemonics of rule R40, with the family suffix of LD160 and ST160, and MOV of rule R41. -/
inductive Mnemonic where
  | zero | ld256 | ld160 (f : Family) | st256 | st160 (f : Family)
  | getbit | setbit | clrbit | isright | iszero
  | forkh | parent | copyb | cmp | mov
  deriving DecidableEq, Repr

/-- The operands of rule R40: `Pn`, `#n`, `SR`, and the literal after `=` with its number of hex digits. -/
inductive AsmOperand where
  | reg (r : PReg)
  | imm (n : Index)
  | scalar
  | literal (digits : Nat) (v : Value)
  deriving DecidableEq, Repr

/-- One line of assembler text, parsed. -/
structure AsmLine where
  mnemonic : Mnemonic
  operands : List AsmOperand
  deriving DecidableEq, Repr

/-- The table of rules R40 and R41: the instruction of a line, and the data-in value presented with it (0 for a command
that takes none; it is ignored, R30). A line of another shape is no command. -/
def AsmLine.assemble (l : AsmLine) : Option (Instr × Value) :=
  match l.mnemonic, l.operands with
  | .zero,    [.reg d]                   => some (.zero d, 0#256)
  | .ld256,   [.reg d, .literal 64 v]    => some (.ld256 d, v)
  | .ld160 f, [.reg d, .literal 40 v]    => some (.ld160 f d, v)
  | .st256,   [.reg s]                   => some (.st256 s, 0#256)
  | .st160 f, [.reg s]                   => some (.st160 f s, 0#256)
  | .getbit,  [.reg s, .imm n]           => some (.getbitI s n, 0#256)
  | .getbit,  [.reg s, .scalar]          => some (.getbitX s, 0#256)
  | .setbit,  [.reg d, .imm n]           => some (.setbitI d n, 0#256)
  | .setbit,  [.reg d, .scalar]          => some (.setbitX d, 0#256)
  | .clrbit,  [.reg d, .imm n]           => some (.clrbitI d n, 0#256)
  | .clrbit,  [.reg d, .scalar]          => some (.clrbitX d, 0#256)
  | .isright, [.reg s, .imm n]           => some (.isrightI s n, 0#256)
  | .isright, [.reg s, .scalar]          => some (.isrightX s, 0#256)
  | .iszero,  [.reg s]                   => some (.iszero s, 0#256)
  | .forkh,   [.reg s, .reg t]           => some (.forkh s t, 0#256)
  | .parent,  [.reg d, .reg s, .imm n]   => some (.parentI d s n, 0#256)
  | .parent,  [.reg d, .reg s, .scalar]  => some (.parentX d s, 0#256)
  | .copyb,   [.reg d, .reg s, .imm n]   => some (.copybI d s n, 0#256)
  | .copyb,   [.reg d, .reg s, .scalar]  => some (.copybX d s, 0#256)
  | .cmp,     [.reg s, .reg t]           => some (.cmp s t, 0#256)
  | .mov,     [.reg d, .reg s]           => some (Instr.mov d s, 0#256)
  | _, _                                 => none

/-- The line of R40 that writes an instruction; a load takes its literal from `din` (160 bits of it for LD160). -/
def asmOf (i : Instr) (din : Value) : AsmLine :=
  match i with
  | .zero d        => ⟨.zero, [.reg d]⟩
  | .ld256 d       => ⟨.ld256, [.reg d, .literal 64 din]⟩
  | .ld160 f d     => ⟨.ld160 f, [.reg d, .literal 40 ((din.extractLsb' 0 160).setWidth 256)]⟩
  | .st256 s       => ⟨.st256, [.reg s]⟩
  | .st160 f s     => ⟨.st160 f, [.reg s]⟩
  | .getbitI s n   => ⟨.getbit, [.reg s, .imm n]⟩
  | .getbitX s     => ⟨.getbit, [.reg s, .scalar]⟩
  | .setbitI d n   => ⟨.setbit, [.reg d, .imm n]⟩
  | .setbitX d     => ⟨.setbit, [.reg d, .scalar]⟩
  | .clrbitI d n   => ⟨.clrbit, [.reg d, .imm n]⟩
  | .clrbitX d     => ⟨.clrbit, [.reg d, .scalar]⟩
  | .isrightI s n  => ⟨.isright, [.reg s, .imm n]⟩
  | .isrightX s    => ⟨.isright, [.reg s, .scalar]⟩
  | .iszero s      => ⟨.iszero, [.reg s]⟩
  | .forkh s t     => ⟨.forkh, [.reg s, .reg t]⟩
  | .parentI d s n => ⟨.parent, [.reg d, .reg s, .imm n]⟩
  | .parentX d s   => ⟨.parent, [.reg d, .reg s, .scalar]⟩
  | .copybI d s n  => ⟨.copyb, [.reg d, .reg s, .imm n]⟩
  | .copybX d s    => ⟨.copyb, [.reg d, .reg s, .scalar]⟩
  | .cmp s t       => ⟨.cmp, [.reg s, .reg t]⟩

/-- The mnemonics as they are written (R40: capitals). -/
def mnemonicNames : List (List Char × Mnemonic) :=
  [(['Z','E','R','O'], .zero), (['L','D','2','5','6'], .ld256),
   (['L','D','1','6','0','.','A'], .ld160 .a), (['L','D','1','6','0','.','B'], .ld160 .b),
   (['S','T','2','5','6'], .st256),
   (['S','T','1','6','0','.','A'], .st160 .a), (['S','T','1','6','0','.','B'], .st160 .b),
   (['G','E','T','B','I','T'], .getbit), (['S','E','T','B','I','T'], .setbit),
   (['C','L','R','B','I','T'], .clrbit), (['I','S','R','I','G','H','T'], .isright),
   (['I','S','Z','E','R','O'], .iszero)] ++
  [(['F','O','R','K','H'], .forkh), (['P','A','R','E','N','T'], .parent),
   (['C','O','P','Y','B'], .copyb), (['C','M','P'], .cmp), (['M','O','V'], .mov)]

/-- The value of a digit character in base 10 or 16. -/
def digitValue (base : Nat) (c : Char) : Option Nat :=
  let n := c.toNat
  let d :=
    if 48 ≤ n ∧ n ≤ 57 then n - 48
    else if 97 ≤ n ∧ n ≤ 102 then n - 87
    else if 65 ≤ n ∧ n ≤ 70 then n - 55
    else 16
  if d < base then some d else none

/-- The number a non-empty digit list writes, most significant digit first. -/
def digitsValue (base acc : Nat) : List Char → Option Nat
  | []      => some acc
  | c :: cs =>
    match digitValue base c with
    | some d => digitsValue base (acc * base + d) cs
    | none   => none

/-- An immediate after `#`: decimal, or hex after `0x`, 0 to 255. -/
def parseImmediate (cs : List Char) : Option AsmOperand :=
  let n :=
    match cs with
    | []                   => none
    | '0' :: 'x' :: []     => none
    | '0' :: 'x' :: digits => digitsValue 16 0 digits
    | digits               => digitsValue 10 0 digits
  match n with
  | some k => if k < 256 then some (.imm (BitVec.ofNat 8 k)) else none
  | none   => none

/-- A literal after `=`: `0x` and at most 64 hex digits; the table of R40 asks for exactly 64 or 40. -/
def parseLiteral (cs : List Char) : Option AsmOperand :=
  match cs with
  | '0' :: 'x' :: digits =>
    match digitsValue 16 0 digits with
    | some n => if digits.length ≤ 64 then some (.literal digits.length (BitVec.ofNat 256 n)) else none
    | none   => none
  | _ => none

/-- One operand of rule R40. -/
def parseOperand (cs : List Char) : Option AsmOperand :=
  match cs with
  | ['P', '0']     => some (.reg .p0)
  | ['P', '1']     => some (.reg .p1)
  | ['P', '2']     => some (.reg .p2)
  | ['P', '3']     => some (.reg .p3)
  | ['S', 'R']     => some .scalar
  | '#' :: digits  => parseImmediate digits
  | '=' :: literal => parseLiteral literal
  | _              => none

/-- A blank between the parts of a line. -/
def isBlank (c : Char) : Bool := c == ' ' || c == '\t'

/-- A text without the blanks at its ends. -/
def trimBlanks (cs : List Char) : List Char :=
  ((cs.dropWhile isBlank).reverse.dropWhile isBlank).reverse

/-- A text split at its commas. -/
def splitCommas : List Char → List (List Char)
  | []      => [[]]
  | c :: cs =>
    match splitCommas cs with
    | []        => [[c]]
    | p :: rest => if c = ',' then [] :: p :: rest else (c :: p) :: rest

/-- Every operand of a line, or none where one is no operand. -/
def parseOperands : List (List Char) → Option (List AsmOperand)
  | []      => some []
  | p :: ps =>
    match parseOperand (trimBlanks p), parseOperands ps with
    | some o, some os => some (o :: os)
    | _, _            => none

/-- One line of text: a mnemonic, a blank, the operands separated by commas; `;` starts a comment (R40). -/
def parseLine (text : List Char) : Option AsmLine :=
  let body := trimBlanks (text.takeWhile (· != ';'))
  let name := body.takeWhile (fun c => !isBlank c)
  match mnemonicNames.find? (fun e => e.1 == name), parseOperands (splitCommas (body.dropWhile (fun c => !isBlank c))) with
  | some e, some os => some ⟨e.2, os⟩
  | _, _            => none

/-- The command the host presents for one line of text: its word and its data-in value (R40, R35). -/
def assembleText (text : List Char) : Option HostEvent :=
  match parseLine text with
  | some l =>
    match l.assemble with
    | some (i, din) => some (.command (encode i) din)
    | none          => none
  | none => none

/-- A line that holds no command: blank, or a comment alone (R40). -/
def isEmptyLine (text : List Char) : Bool := trimBlanks (text.takeWhile (· != ';')) == []

/-- A text of lines, one command per line (R40): the commands the host presents, in order (R28). -/
def assembleLines : List (List Char) → Option (List HostEvent)
  | []      => some []
  | l :: ls =>
    if isEmptyLine l then assembleLines ls
    else
      match assembleText l, assembleLines ls with
      | some e, some es => some (e :: es)
      | _, _            => none

end Sys2Proof.Machine
end

