-- ==== Sys2Proof/Machine/Ports.lean ====
section
/-! DEFINITION. The unit at the level of clock edges: the ports and the handshake (spec/20_memory.md rules R30 and R31)
and the reset input (spec/70_reset_and_hazards.md rules R74 and R75), around the command behaviour of Step.lean.
Log entry 7. -/

namespace Sys2Proof.Machine

/-- The input ports as they stand at a rising edge of `clk` (R30). -/
structure PortsIn where
  rst      : Bool
  cmdValid : Bool
  cmdWord  : CmdWord
  cmdData  : Value
  deriving DecidableEq, Repr

/-- The output ports in a cycle (R30). `rsp_valid` is 1 exactly when `rsp` holds a response; where it is 0 the three
response ports carry no meaning (R31; 93_implementation_defined.md U5), so nothing stands for them. -/
structure PortsOut where
  cmdReady : Bool
  rsp      : Option Response
  deriving DecidableEq, Repr

/-- What the unit is doing between two edges: it can accept a command, or performs the word it accepted (R31). -/
inductive Phase where
  | ready
  | performing (cw : CmdWord)
  deriving DecidableEq, Repr

/-- The unit with its handshake. The data-in value of the command in flight is in `unit.din`. -/
structure Clocked where
  unit  : State
  phase : Phase
  deriving DecidableEq, Repr

/-- The output ports of the cycle (R31, R74): ready unless a command is being performed; `rst` holds both outputs
at 0. -/
def Clocked.outputs (rst : Bool) (c : Clocked) : PortsOut :=
  match rst, c.phase with
  | true,  _             => { cmdReady := false, rsp := none }
  | false, .ready        => { cmdReady := true,  rsp := c.unit.rsp }
  | false, .performing _ => { cmdReady := false, rsp := none }

/-- The state of the unit after an edge with `rst = 1`, whatever it was doing (R74). -/
def Clocked.afterReset (c : Clocked) : Clocked :=
  { unit := State.resetUnit c.unit.host, phase := .ready }

/-- The edge that accepts a command: word and data are sampled and the response of the cycle before goes (R31). -/
def Clocked.afterAccept (c : Clocked) (cw : CmdWord) (din : Value) : Clocked :=
  { unit := c.unit.idle.accept din c.unit.host, phase := .performing cw }

/-- An edge at which nothing is accepted: only the response of the cycle before goes (R31, R73). -/
def Clocked.afterIdle (c : Clocked) : Clocked := { unit := c.unit.idle, phase := .ready }

/-- The edge after acceptance: the command's behaviour, then ready again (R31). -/
def Clocked.finish (cw : CmdWord) (c : Clocked) : Host.Outcome Clocked Fault Refusal :=
  match runCommand cw c.unit with
  | .next t    => .next { unit := t, phase := .ready }
  | .fault f   => .fault f
  | .refused r => .refused r

/-- One rising edge of `clk` (R31, R68, R74). -/
def clockEdge (p : PortsIn) (c : Clocked) : Host.Outcome Clocked Fault Refusal :=
  if p.rst then .next c.afterReset
  else
    match c.phase with
    | .performing cw => c.finish cw
    | .ready         => if p.cmdValid then .next (c.afterAccept p.cmdWord p.cmdData) else .next c.afterIdle

end Sys2Proof.Machine
end

