-- ==== Sys2Proof/Machine/Reference.lean ====
section
/-! DEFINITION. The reference structures of the unit's three trees: the bit-position scanner (spec/42_path.md rule R56),
the mask of the bit-field masker (R59) and the comparator tree (spec/43_ordering.md rule R64). The spec gives them so
that a tree-shaped model has something to be proved equal to; the functions the meanings call are the normative ones. -/

namespace Sys2Proof.Machine

/-- `scan(x)` of R56 on a segment of width `2^m`: whether any bit is set, and the `m`-bit position of the highest. -/
def leadingOne : (m : Nat) → BitVec (2 ^ m) → Bool × BitVec m
  | 0,     x => (x.getLsbD 0, 0#0)
  | m + 1, x =>
    let hi := leadingOne m (x.extractLsb' (2 ^ m) (2 ^ m))
    let lo := leadingOne m (x.extractLsb' 0 (2 ^ m))
    (hi.1 || lo.1, if hi.1 then BitVec.cons true hi.2 else BitVec.cons false lo.2)

/-- The scanner of R56: XOR, then the eight-level leading-one detector. Its `any` output is not exposed (R55). -/
def scannerTree (a b : Value) : Index := (leadingOne 8 (a ^^^ b)).2

/-- Byte `k` of `MASK(s)` for `s` in 0 to 256 (R59). -/
def maskByte (s k : Nat) : Byte :=
  if k < s / 8 then 0x00#8 else if k = s / 8 then 0xFF#8 <<< (s % 8) else 0xFF#8

/-- `MASK(s)` for a 9-bit `s` (R59). -/
def mask (s : BitVec 9) : Value := ofBytes (maskByte s.toNat)

/-- The masker's COPYB (R59). -/
def copyMasked (v : Value) (start : Index) : Value := v &&& mask (start.setWidth 9)

/-- The masker's PARENT (R59): a 9-bit sum and no special case at height 255. -/
def parentMasked (v : Value) (height : Index) : Value := v &&& mask (height.setWidth 9 + 1#9)

/-- The node of R64: `h` is the more significant segment. -/
def cmpNode (h l : Order3) : Order3 where
  lt := h.lt || (h.eq && l.lt)
  eq := h.eq && l.eq
  gt := h.gt || (h.eq && l.gt)

/-- The leaf of R64: one 8-bit unsigned comparator on byte `k`. -/
def cmpLeaf (a b : Value) (k : Nat) : Order3 where
  lt := (byteAt a k).ult (byteAt b k)
  eq := byteAt a k == byteAt b k
  gt := (byteAt b k).ult (byteAt a k)

/-- The one-bit leaf of R64: `lt = NOT a AND b`, `eq = NOT (a XOR b)`, `gt = a AND NOT b`. -/
def cmpBitLeaf (a b : Value) (i : Nat) : Order3 where
  lt := !bitAt a i && bitAt b i
  eq := !(bitAt a i ^^ bitAt b i)
  gt := bitAt a i && !bitAt b i

/-- A bracketing of leaves, the more significant segment first (R64). -/
inductive Bracketing where
  | leaf (k : Nat)
  | node (high low : Bracketing)
  deriving DecidableEq, Repr

/-- The leaves of a bracketing, most significant first. -/
def Bracketing.leaves : Bracketing → List Nat
  | .leaf k   => [k]
  | .node h l => h.leaves ++ l.leaves

/-- The outputs at the root of a bracketing whose leaves are `cell`. -/
def Bracketing.eval (cell : Nat → Order3) : Bracketing → Order3
  | .leaf k   => cell k
  | .node h l => cmpNode (h.eval cell) (l.eval cell)

/-- The balanced bracketing of the `2^n` leaves from `m * 2^n` up: level `n` combines pairs of level `n - 1` results
(R64). -/
def Bracketing.balanced : Nat → Nat → Bracketing
  | 0,     m => .leaf m
  | n + 1, m => .node (balanced n (2 * m + 1)) (balanced n (2 * m))

/-- The comparator tree of R64: five levels over the 32 byte leaves. -/
def comparatorTree (a b : Value) : Order3 := (Bracketing.balanced 5 0).eval (cmpLeaf a b)

/-- `n - 1` down to 0. -/
def downFrom : Nat → List Nat
  | 0     => []
  | n + 1 => n :: downFrom n

end Sys2Proof.Machine
end

