-- ==== Sys2Proof/Safety.lean ====
section
/-! DEFINITION. What counts as a legal state and the terms the claims are stated in: the invariant (spec/10_state.md
rules R17 and R19), which instruction writes what (R15 to R17), what a command leaves unchanged, and the order of
values in its bit and byte forms (spec/43_ordering.md rule R61). -/

namespace Sys2Proof.Machine

/-- `{GT, EQ, LT}` is one of 000, 001, 010, 100 (R17, R19): no two flags are set. -/
def State.FlagsLegal (s : State) : Prop :=
  ¬(s.lt = true ∧ s.eq = true) ∧ ¬(s.lt = true ∧ s.gt = true) ∧ ¬(s.eq = true ∧ s.gt = true)

/-- A response shows the status of the state it stands in; one with `err = 1` carries no data and finds `ILL` set
(R18, R31, R65). -/
def State.ResponseLegal (s : State) : Prop :=
  ∀ r, s.rsp = some r → r.status = s.status ∧ (r.err = true → s.ill = true ∧ r.data = 0#256)

/-- The invariant of the unit. -/
def State.Inv (s : State) : Prop := s.FlagsLegal ∧ s.ResponseLegal

/-- The destination register of an instruction: the seven writers of path registers (R15). -/
def destination : Instr → Option PReg
  | .zero rd | .ld256 rd | .ld160 _ rd => some rd
  | .setbitI rd _ | .setbitX rd | .clrbitI rd _ | .clrbitX rd => some rd
  | .parentI rd _ _ | .parentX rd _ | .copybI rd _ _ | .copybX rd _ => some rd
  | .st256 _ | .st160 _ _ | .getbitI _ _ | .getbitX _ | .isrightI _ _ | .isrightX _ => none
  | .iszero _ | .forkh _ _ | .cmp _ _ => none

/-- The four instructions that write `SR` (R16): GETBIT, ISRIGHT, ISZERO, FORKH. -/
def writesScalar : Instr → Bool
  | .getbitI _ _ | .getbitX _ | .isrightI _ _ | .isrightX _ | .iszero _ | .forkh _ _ => true
  | .zero _ | .ld256 _ | .ld160 _ _ | .st256 _ | .st160 _ _ => false
  | .setbitI _ _ | .setbitX _ | .clrbitI _ _ | .clrbitX _ => false
  | .parentI _ _ _ | .parentX _ _ | .copybI _ _ _ | .copybX _ _ | .cmp _ _ => false

/-- The instruction that writes the flags (R17): CMP alone. -/
def writesFlags : Instr → Bool
  | .cmp _ _ => true
  | .zero _ | .ld256 _ | .ld160 _ _ | .st256 _ | .st160 _ _ => false
  | .getbitI _ _ | .getbitX _ | .isrightI _ _ | .isrightX _ | .iszero _ | .forkh _ _ => false
  | .setbitI _ _ | .setbitX _ | .clrbitI _ _ | .clrbitX _ => false
  | .parentI _ _ _ | .parentX _ _ | .copybI _ _ _ | .copybX _ _ => false

/-- The instructions that drive the data-out port (R31): ST256 and ST160. -/
def drivesData : Instr → Bool
  | .st256 _ | .st160 _ _ => true
  | .zero _ | .ld256 _ | .ld160 _ _ | .cmp _ _ => false
  | .getbitI _ _ | .getbitX _ | .isrightI _ _ | .isrightX _ | .iszero _ | .forkh _ _ => false
  | .setbitI _ _ | .setbitX _ | .clrbitI _ _ | .clrbitX _ => false
  | .parentI _ _ _ | .parentX _ _ | .copybI _ _ _ | .copybX _ _ => false

/-- How an instruction's result may depend on the data-in value (93_implementation_defined.md U6): LD256 reads all of
it, LD160 its low 160 bits, no other instruction any of it. -/
def dinAgrees (i : Instr) (d₁ d₂ : Value) : Prop :=
  match i with
  | .ld256 _   => d₁ = d₂
  | .ld160 _ _ => d₁.extractLsb' 0 160 = d₂.extractLsb' 0 160
  | _          => True

/-- The two states hold the same flags. -/
structure SameFlags (s t : State) : Prop where
  lt : t.lt = s.lt
  eq : t.eq = s.eq
  gt : t.gt = s.gt

/-- The two states hold the same path registers. -/
def SamePaths (s t : State) : Prop := ∀ r, t.getP r = s.getP r

/-- The architectural state (the tuple of R20) is the same. -/
structure SameArch (s t : State) : Prop where
  paths : SamePaths s t
  sr    : t.sr = s.sr
  flags : SameFlags s t
  ill   : t.ill = s.ill

/-- What no command changes: the data-in value it came with, and what the host presents after it. -/
structure SameInput (s t : State) : Prop where
  din  : t.din = s.din
  host : t.host = s.host

/-- The command answered `err = 0` with the status after it and the given data (R31). -/
def Answers (data : Value) (t : State) : Prop :=
  t.rsp = some { err := false, status := t.status, data := data }

/-- From `s` to `t` a legal command wrote `v` to `P[rd]` and nothing else, and answered without data. -/
structure WritesPath (rd : PReg) (v : Value) (s t : State) : Prop where
  written : t.getP rd = v
  others  : ∀ r, r ≠ rd → t.getP r = s.getP r
  sr      : t.sr = s.sr
  flags   : SameFlags s t
  ill     : t.ill = s.ill
  input   : SameInput s t
  answer  : Answers 0#256 t

/-- From `s` to `t` a legal command wrote `v` to `SR` and nothing else, and answered without data. -/
structure WritesScalar (v : BitVec 8) (s t : State) : Prop where
  written : t.sr = v
  paths   : SamePaths s t
  flags   : SameFlags s t
  ill     : t.ill = s.ill
  input   : SameInput s t
  answer  : Answers 0#256 t

/-- From `s` to `t` a legal command wrote the three flags and nothing else, and answered without data. -/
structure WritesFlags (lt eq gt : Bool) (s t : State) : Prop where
  lt     : t.lt = lt
  eq     : t.eq = eq
  gt     : t.gt = gt
  paths  : SamePaths s t
  sr     : t.sr = s.sr
  ill    : t.ill = s.ill
  input  : SameInput s t
  answer : Answers 0#256 t

/-- From `s` to `t` a legal command changed no state and answered with `data`. -/
structure OnlyAnswers (data : Value) (s t : State) : Prop where
  arch   : SameArch s t
  input  : SameInput s t
  answer : Answers data t

/-- `a < b` by bits (R61): a position where `a` has 0 and `b` has 1, every higher position agreeing. -/
def LtByBits (a b : Value) : Prop :=
  ∃ i, i < 256 ∧ bitAt a i = false ∧ bitAt b i = true ∧ ∀ j, i < j → j ≤ 255 → bitAt a j = bitAt b j

/-- `a < b` by bytes (R61): lexicographic from byte 31 down to byte 0. -/
def LtByBytes (a b : Value) : Prop :=
  ∃ k, k < 32 ∧ (byteAt a k).toNat < (byteAt b k).toNat ∧
    ∀ m, k < m → m ≤ 31 → byteAt a m = byteAt b m

/-- `a < b` by number (R61). -/
def LtByNumber (a b : Value) : Prop := number a < number b

/-- `h` is the index of the highest set bit of `x` (R60 item 2; R56). -/
def HighestSetBit (x : Value) (h : Index) : Prop :=
  bitAt x h.toNat = true ∧ ∀ j, h.toNat < j → j ≤ 255 → bitAt x j = false

/-- `a` and `b` have the same bits at every position above `h` (R60 item 4). -/
def AgreeAbove (h : Index) (a b : Value) : Prop := ∀ j, h.toNat < j → j ≤ 255 → bitAt a j = bitAt b j

/-- `a <= b` in the order of R61: `a < b` or the two are equal (R60 item 6). -/
def AtMost (a b : Value) : Prop := LtByNumber a b ∨ a = b

/-- Every word of a row of R37 (its mask and match) decodes to the instruction `mk` makes of the word's fields. -/
def EncodedAs (rowMask rowMatch : CmdWord) (mk : Fields → Instr) : Prop :=
  ∀ cw, cw &&& rowMask = rowMatch → decode cw = .ok (mk (Fields.ofWord cw))

/-- The event is a command whose word decodes to an instruction with the given property. -/
def PresentsLegal (s : State) (what : Instr → Prop) : Prop :=
  ∃ cw din rest i, s.host = .command cw din :: rest ∧ decode cw = .ok i ∧ what i

/-- The next event is a reset. -/
def PresentsReset (s : State) : Prop := ∃ rest, s.host = .reset :: rest

/-- The word satisfies no row of rule R37 (R38). -/
def IllegalCommand (cw : CmdWord) : Prop := ∀ r : Form, (cw &&& r.row.mask) ≠ r.row.pattern

end Sys2Proof.Machine
end

