-- ==== Sys2Proof/Certificates/Slice0/Obligations.lean ====
section
/-! DEFINITION. The statements about the FixedPath256 unit, each from the numbered rules of spec/. `exec` and `step` are
the machine's; `WritesPath`, `WritesScalar`, `WritesFlags` and `OnlyAnswers` (Safety.lean) say what a command writes,
that everything else is unchanged, and its response. -/

open Sys2Proof
open Sys2Proof.Machine

/-! ## Reset and the invariant -/

/-- R21: after a reset event, from whatever state, and in the reset state, every element has its reset value. -/
def Obligations.ResetClearsEverything : Prop :=
  (∀ s rest, s.host = .reset :: rest →
    ∃ t, step s = .next t ∧ (∀ r, t.getP r = zero256 ∧ ∀ k < 32, byteAt (t.getP r) k = 0x00#8) ∧ t.sr = 0x00#8 ∧
      t.lt = false ∧ t.eq = false ∧ t.gt = false ∧ t.ill = false ∧ t.status = 0x000#12 ∧ t.rsp = none ∧
      t.host = rest) ∧
  (∀ r, State.reset.getP r = zero256) ∧ State.reset.sr = 0x00#8 ∧ State.reset.lt = false ∧
    State.reset.eq = false ∧ State.reset.gt = false ∧ State.reset.ill = false ∧ State.reset.status = 0x000#12

/-- The invariant holds at reset, whatever the host presents next (R17, R19, R21). -/
def Obligations.InvariantAtReset : Prop :=
  State.reset.Inv ∧ ∀ rest, (State.resetUnit rest).Inv

/-- R17, R19, R31: from every state, reachable or not, a step keeps the invariant: no two order flags are set, and a
response on the ports shows the status of the state it stands in. -/
def Obligations.StepKeepsInvariant : Prop :=
  ∀ s t, s.Inv → step s = .next t → t.Inv

/-! ## Encoding -/

/-- R33: decoding is the inverse of encoding, for every instruction with every operand. -/
def Obligations.DecodeInvertsEncode : Prop :=
  ∀ i : Instr, decode (encode i) = .ok i

/-- R33: every legal command has exactly one command word. -/
def Obligations.EncodeInvertsDecode : Prop :=
  ∀ cw i, decode cw = .ok i → encode i = cw

/-- R33, R38: the words the rows of R37 accept are those whose fields the field rule of R33 accepts, and the reason
`unknownOp` is given exactly where `OP` is none of the fourteen. -/
def Obligations.LegalExactlyByFields : Prop :=
  (∀ cw, (∃ i, decode cw = .ok i) ↔ (Fields.ofWord cw).wellFormed = true) ∧
  ∀ cw, decode cw = .error .unknownOp ↔ ∀ r : Form, r.op ≠ (Fields.ofWord cw).op

/-- R37: no word satisfies two rows. -/
def Obligations.OpcodeRowsDisjoint : Prop :=
  ∀ (cw : CmdWord) (q r : Form),
    cw &&& q.row.mask = q.row.pattern → cw &&& r.row.mask = r.row.pattern → q = r

/-- R38: a word that satisfies no row is illegal and raises IllegalCommand; 242 opcode values name nothing, 0x00 and 0xFF
among them; the all-zero and the all-ones word are illegal; a word is illegal exactly where its fields are (unknown `OP`, non-zero unused
field or `Z`, SR form with non-zero `IDX`); 12400 words are legal. -/
def Obligations.IllegalWordsAreTheRest : Prop :=
  (∀ cw s, IllegalCommand cw → (¬∃ i, decode cw = .ok i) ∧ runCommand cw s = .next s.raiseIllegalCommand) ∧
  (∀ cw, ¬IllegalCommand cw → ∃ i, decode cw = .ok i) ∧
  ((List.range 256).filter (fun n => Form.all.all (fun r => r.op != BitVec.ofNat 8 n))).length = 242 ∧
  (∀ r : Form, r.op ≠ 0x00#8 ∧ r.op ≠ 0xFF#8) ∧
  IllegalCommand 0x00000000#32 ∧ IllegalCommand 0xFFFFFFFF#32 ∧
  (∀ cw, IllegalCommand cw ↔ (Fields.ofWord cw).wellFormed = false) ∧
  (∀ g : Fields, g.z ≠ 0#8 → IllegalCommand g.toWord) ∧
  (∀ g : Fields, g.x = 1#1 → g.idx ≠ 0#8 → IllegalCommand g.toWord) ∧
  ∃ words : List CmdWord, words.Nodup ∧ words.length = 12400 ∧ ∀ cw, cw ∈ words ↔ ¬IllegalCommand cw

/-- Words written out from the table of R37 and the fields of R32 decode to what they stand for. -/
def Obligations.TableWordsDecode : Prop :=
  decode 0b00000000000000000000001000010000#32 = .ok (.zero .p2) ∧
  decode 0b00000000000000001000001100010010#32 = .ok (.ld160 .b .p3) ∧
  decode 0b00000000111111110000110000100000#32 = .ok (.getbitI .p3 255#8) ∧
  decode 0b00000000000000000010110000110000#32 = .ok (.forkh .p3 .p2) ∧
  decode 0b00000000000000100000011100110001#32 = .ok (.parentI .p3 .p1 2#8) ∧
  decode 0b00000000000000000100111100110010#32 = .ok (.copybX .p3 .p3) ∧
  decode 0b00000000000000000011100001000000#32 = .ok (.cmp .p2 .p3)

/-! ## The step -/

/-- R39, R28: where the host presents a word that decodes to `i`, the step is `i`'s meaning on the state with the
data-in value sampled and the event gone from the host's list; nothing else of that state differs. -/
def Obligations.StepRunsDecodedInstruction : Prop :=
  ∀ s cw din rest i, s.host = .command cw din :: rest → decode cw = .ok i →
    step s = exec i (s.accept din rest) ∧
    (s.accept din rest).din = din ∧ (s.accept din rest).host = rest ∧ (s.accept din rest).rsp = s.rsp ∧
    SameArch s (s.accept din rest)

/-- R65: the whole effect of an illegal command word; another data-in value makes no difference. -/
def Obligations.IllegalCommandEffect : Prop :=
  ∀ (s : State) cw din rest, s.host = .command cw din :: rest → IllegalCommand cw →
    ∃ t : State, step s = .next t ∧ t.ill = true ∧ SamePaths s t ∧ t.sr = s.sr ∧ SameFlags s t ∧ t.host = rest ∧
      t.rsp = some { err := true, status := t.status, data := 0#256 } ∧ t.status.getLsbD 11 = true ∧
      ∀ d, step { s with host := .command cw d :: rest } = .next { t with din := d }

/-- R3: every instruction completes without an error, for every state and operand; data is driven by ST256 and ST160
alone. And every step of the unit answers a next state. -/
def Obligations.EveryCommandCompletes : Prop :=
  (∀ i s, ∃ t data, exec i s = .next t ∧ Answers data t ∧ (drivesData i = false → data = 0#256)) ∧
  (∀ s, ∃ t, step s = .next t)

/-- R66: `err = 1` exactly for illegal command words, `err = 0` for the 12400 legal ones. -/
def Obligations.ErrExactlyForIllegalWords : Prop :=
  ∃ words : List CmdWord, words.Nodup ∧ words.length = 12400 ∧
    ∀ s cw din rest, s.host = .command cw din :: rest →
      ∃ t r, step s = .next t ∧ t.rsp = some r ∧ (r.err = true ↔ IllegalCommand cw) ∧ (r.err = false ↔ cw ∈ words)

/-- R28, R31: a step takes the oldest event alone, and no later event has an effect on it. -/
def Obligations.EventsRunInOrder : Prop :=
  ∀ (s : State) e rest, s.host = e :: rest →
    ∃ t : State, step s = .next t ∧ t.host = rest ∧
      ∀ rest', step { s with host := e :: rest' } = .next { t with host := rest' }

/-- R73: where the host presents nothing the unit holds its state and gives no response. -/
def Obligations.IdleHoldsState : Prop :=
  ∀ s, s.host = [] → ∃ t, step s = .next t ∧ SameArch s t ∧ t.rsp = none ∧ t.host = []

/-- 93_implementation_defined.md U6, R30: data-in bits an instruction does not use have no effect on anything. -/
def Obligations.UnusedDataInIgnored : Prop :=
  ∀ i (s : State) d₁ d₂ (t : State), dinAgrees i d₁ d₂ → exec i { s with din := d₁ } = .next t →
    exec i { s with din := d₂ } = .next { t with din := d₂ }

/-! ## Construction and conversion -/

/-- R42. -/
def Obligations.ZeroWritesZeroConstant : Prop :=
  EncodedAs 0xFFFFFCFF#32 0x00000010#32 (fun g => .zero (.ofBits g.rd)) ∧
  ∀ rd s, ∃ t, exec (.zero rd) s = .next t ∧ WritesPath rd zero256 s t ∧
    (∀ k < 32, byteAt (t.getP rd) k = 0x00#8) ∧
    (∃ u, exec (.iszero rd) t = .next u ∧ u.sr = 0x01#8) ∧
    ∀ i, ∃ u, exec (.getbitI rd i) t = .next u ∧ u.sr = 0x00#8

/-- R43. -/
def Obligations.Ld256CopiesDataIn : Prop :=
  EncodedAs 0xFFFFFCFF#32 0x00000011#32 (fun g => .ld256 (.ofBits g.rd)) ∧
  ∀ rd s, ∃ t, exec (.ld256 rd) s = .next t ∧ WritesPath rd s.din s t ∧
    ∀ k < 32, ∀ j < 8, (byteAt (t.getP rd) k).getLsbD j = s.din.getLsbD (8 * k + j)

/-- R44 with `W160_OFFSET = 12` (log entry 5, the spec's D11): bits 0 to 95 are zero and `din[159:0]` stands above. -/
def Obligations.Ld160WidensDataIn : Prop :=
  EncodedAs 0xFFFF7CFF#32 0x00000012#32 (fun g => .ld160 (.ofBit g.f) (.ofBits g.rd)) ∧
  ∀ f rd s, ∃ t v, exec (.ld160 f rd) s = .next t ∧ WritesPath rd v s t ∧
    (∀ j < 256, v.getLsbD j = (decide (96 ≤ j) && s.din.getLsbD (j - 96))) ∧
    v = ((s.din.extractLsb' 0 160).setWidth 256) <<< 96 ∧
    number v = (s.din.extractLsb' 0 160).toNat * 2 ^ 96

/-- R45. -/
def Obligations.St256DrivesValue : Prop :=
  EncodedAs 0xFFFFF3FF#32 0x00000013#32 (fun g => .st256 (.ofBits g.rs1)) ∧
  ∀ rs s, ∃ t, exec (.st256 rs) s = .next t ∧ OnlyAnswers (s.getP rs) s t

/-- R46 with `W160_OFFSET = 12` (log entry 5, the spec's D11, D12): bits 96 to 255 go out on `data[159:0]`. -/
def Obligations.St160NarrowsValue : Prop :=
  EncodedAs 0xFFFF73FF#32 0x00000014#32 (fun g => .st160 (.ofBit g.f) (.ofBits g.rs1)) ∧
  ∀ f rs s, ∃ t data, exec (.st160 f rs) s = .next t ∧ OnlyAnswers data s t ∧
    (∀ j < 256, data.getLsbD j = (decide (j < 160) && (s.getP rs).getLsbD (96 + j))) ∧
    data = (s.getP rs) >>> 96

/-- R47 items 1 and 2: loading and storing 256 bits are inverse to each other, through the ports. -/
def Obligations.RoundTrip256 : Prop :=
  (∀ rd s, ∃ t u, exec (.ld256 rd) s = .next t ∧ exec (.st256 rd) t = .next u ∧ Answers s.din u) ∧
  ∀ rd rs s, ∃ (t : State) (r : Response) (u : State), exec (.st256 rs) s = .next t ∧ t.rsp = some r ∧
    exec (.ld256 rd) { t with din := r.data } = .next u ∧ u.getP rd = s.getP rs

/-- R47 items 3 to 5, for every window offset the spec allows; the last three lines are for offset 12. -/
def Obligations.WindowRoundTrips : Prop :=
  (∀ off ≤ Config.w160OffsetMax, ∀ d, narrow160 off (widen160 off d) = (d.extractLsb' 0 160).setWidth 256) ∧
  (∀ off ≤ Config.w160OffsetMax, ∀ v, ∀ k < 32,
    byteAt (widen160 off (narrow160 off v)) k = if off ≤ k ∧ k < off + 20 then byteAt v k else 0x00#8) ∧
  (∀ off ≤ Config.w160OffsetMax, ∀ d e, widen160 off d = widen160 off e →
    d.extractLsb' 0 160 = e.extractLsb' 0 160) ∧
  (∀ f v, widen160 (window f) (narrow160 (window f) v) = copyBits v 96#8) ∧
  (∀ f v, widen160 (window f) (narrow160 (window f) v) = v ↔ ∀ j < 96, bitAt v j = false) ∧
  (∀ f d e, (LtByNumber (widen160 (window f) d) (widen160 (window f) e) ↔
      (d.extractLsb' 0 160).toNat < (e.extractLsb' 0 160).toNat) ∧
    (widen160 (window f) d = zero256 ↔ d.extractLsb' 0 160 = 0#160))

/-! ## Bit accessors -/

/-- R49, both forms: the SR form takes its index from the `SR` before the command. -/
def Obligations.GetbitReadsBit : Prop :=
  EncodedAs 0xFF00F3FF#32 0x00000020#32 (fun g => .getbitI (.ofBits g.rs1) g.idx) ∧
  EncodedAs 0xFFFFF3FF#32 0x00004020#32 (fun g => .getbitX (.ofBits g.rs1)) ∧
  (∀ rs n s, ∃ t, exec (.getbitI rs n) s = .next t ∧
    WritesScalar (if (s.getP rs).getLsbD n.toNat then 0x01#8 else 0x00#8) s t) ∧
  ∀ rs s, ∃ t, exec (.getbitX rs) s = .next t ∧
    WritesScalar (if (s.getP rs).getLsbD s.sr.toNat then 0x01#8 else 0x00#8) s t

/-- R50, both forms. -/
def Obligations.SetbitSetsBit : Prop :=
  EncodedAs 0xFF00FCFF#32 0x00000021#32 (fun g => .setbitI (.ofBits g.rd) g.idx) ∧
  EncodedAs 0xFFFFFCFF#32 0x00004021#32 (fun g => .setbitX (.ofBits g.rd)) ∧
  (∀ rd n s, ∃ t, exec (.setbitI rd n) s = .next t ∧
    WritesPath rd (s.getP rd ||| (1#256 <<< n.toNat)) s t ∧ t.getP rd ≠ zero256) ∧
  ∀ rd s, ∃ t, exec (.setbitX rd) s = .next t ∧
    WritesPath rd (s.getP rd ||| (1#256 <<< s.sr.toNat)) s t ∧ t.getP rd ≠ zero256

/-- R51, both forms. -/
def Obligations.ClrbitClearsBit : Prop :=
  EncodedAs 0xFF00FCFF#32 0x00000022#32 (fun g => .clrbitI (.ofBits g.rd) g.idx) ∧
  EncodedAs 0xFFFFFCFF#32 0x00004022#32 (fun g => .clrbitX (.ofBits g.rd)) ∧
  (∀ rd n s, ∃ t, exec (.clrbitI rd n) s = .next t ∧
    WritesPath rd (s.getP rd &&& ~~~(1#256 <<< n.toNat)) s t) ∧
  ∀ rd s, ∃ t, exec (.clrbitX rd) s = .next t ∧
    WritesPath rd (s.getP rd &&& ~~~(1#256 <<< s.sr.toNat)) s t

/-- R52, both forms: the effect and the response of GETBIT with the same operands, at every state. -/
def Obligations.IsrightReadsBit : Prop :=
  EncodedAs 0xFF00F3FF#32 0x00000023#32 (fun g => .isrightI (.ofBits g.rs1) g.idx) ∧
  EncodedAs 0xFFFFF3FF#32 0x00004023#32 (fun g => .isrightX (.ofBits g.rs1)) ∧
  (∀ rs n s, exec (.isrightI rs n) s = exec (.getbitI rs n) s ∧
    ∃ t, exec (.isrightI rs n) s = .next t ∧
      WritesScalar (if (s.getP rs).getLsbD n.toNat then 0x01#8 else 0x00#8) s t) ∧
  ∀ rs s, exec (.isrightX rs) s = exec (.getbitX rs) s ∧
    ∃ t, exec (.isrightX rs) s = .next t ∧
      WritesScalar (if (s.getP rs).getLsbD s.sr.toNat then 0x01#8 else 0x00#8) s t

/-- R53. -/
def Obligations.IszeroTestsZero : Prop :=
  EncodedAs 0xFFFFF3FF#32 0x00000024#32 (fun g => .iszero (.ofBits g.rs1)) ∧
  ∀ rs s, ∃ t b, exec (.iszero rs) s = .next t ∧ WritesScalar b s t ∧
    (b = 0x01#8 ∨ b = 0x00#8) ∧ (b = 0x01#8 ↔ s.getP rs = zero256) ∧
    (b = 0x01#8 ↔ number (s.getP rs) = 0) ∧ (b = 0x01#8 ↔ ∀ k < 32, byteAt (s.getP rs) k = 0x00#8)

/-- R54: the bit round trip and its consequences, for the effects of SETBIT and CLRBIT on a value. -/
def Obligations.BitRoundTrip : Prop :=
  (∀ v i (j : Index), bitAt (setBit v i) j.toNat = if j = i then true else bitAt v j.toNat) ∧
  (∀ v i (j : Index), bitAt (clearBit v i) j.toNat = if j = i then false else bitAt v j.toNat) ∧
  (∀ v i, setBit (setBit v i) i = setBit v i ∧ clearBit (clearBit v i) i = clearBit v i) ∧
  (∀ v i, clearBit (setBit v i) i = clearBit v i ∧ setBit (clearBit v i) i = setBit v i) ∧
  (∀ v (i j : Index), i ≠ j → setBit (setBit v i) j = setBit (setBit v j) i ∧
    clearBit (clearBit v i) j = clearBit (clearBit v j) i ∧ setBit (clearBit v i) j = clearBit (setBit v j) i) ∧
  (∀ v i, setBit v i = v ↔ bitAt v i.toNat = true) ∧
  ∀ v, ∃ indices : List Index, indices.length ≤ 256 ∧ indices.foldl setBit zero256 = v

/-! ## Path algorithms -/

/-- R55: the highest differing position, or 0 where the operands are equal; operands that differ at bit 0 alone give 0
too. -/
def Obligations.ForkhFindsForkHeight : Prop :=
  EncodedAs 0xFFFFC3FF#32 0x00000030#32 (fun g => .forkh (.ofBits g.rs1) (.ofBits g.rs2)) ∧
  ∀ rs rt s, ∃ t h, exec (.forkh rs rt) s = .next t ∧ WritesScalar h s t ∧
    (s.getP rs = s.getP rt → h = 0x00#8) ∧
    (s.getP rs ^^^ s.getP rt = 1#256 → h = 0x00#8) ∧
    (s.getP rs ≠ s.getP rt → (s.getP rs).getLsbD h.toNat ≠ (s.getP rt).getLsbD h.toNat ∧
      ∀ j, h.toNat < j → (s.getP rs).getLsbD j = (s.getP rt).getLsbD j) ∧
    ∃ u, exec (.forkh rt rs) s = .next u ∧ u.sr = h

/-- R57, both forms: the bits at `start` and above, as bits and as a number. -/
def Obligations.CopybKeepsBitsFromStart : Prop :=
  EncodedAs 0xFF00F0FF#32 0x00000032#32 (fun g => .copybI (.ofBits g.rd) (.ofBits g.rs1) g.idx) ∧
  EncodedAs 0xFFFFF0FF#32 0x00004032#32 (fun g => .copybX (.ofBits g.rd) (.ofBits g.rs1)) ∧
  (∀ rd rs n s, ∃ t v, exec (.copybI rd rs n) s = .next t ∧ WritesPath rd v s t ∧
    (∀ j < 256, v.getLsbD j = (decide (n.toNat ≤ j) && (s.getP rs).getLsbD j)) ∧
    number v = number (s.getP rs) - number (s.getP rs) % 2 ^ n.toNat) ∧
  ∀ rd rs s, ∃ t v, exec (.copybX rd rs) s = .next t ∧ WritesPath rd v s t ∧
    (∀ j < 256, v.getLsbD j = (decide (s.sr.toNat ≤ j) && (s.getP rs).getLsbD j)) ∧
    number v = number (s.getP rs) - number (s.getP rs) % 2 ^ s.sr.toNat

/-- R58, both forms: the bits above the height; at height 255 the zero constant, else `copy_bits(height + 1)`. -/
def Obligations.ParentKeepsBitsAboveHeight : Prop :=
  EncodedAs 0xFF00F0FF#32 0x00000031#32 (fun g => .parentI (.ofBits g.rd) (.ofBits g.rs1) g.idx) ∧
  EncodedAs 0xFFFFF0FF#32 0x00004031#32 (fun g => .parentX (.ofBits g.rd) (.ofBits g.rs1)) ∧
  (∀ rd rs n s, ∃ t v, exec (.parentI rd rs n) s = .next t ∧ WritesPath rd v s t ∧
    (∀ j < 256, v.getLsbD j = (decide (n.toNat < j) && (s.getP rs).getLsbD j)) ∧
    (n = 255#8 → v = zero256) ∧
    ∀ start : Index, start.toNat = n.toNat + 1 → v = copyBits (s.getP rs) start) ∧
  ∀ rd rs s, ∃ t v, exec (.parentX rd rs) s = .next t ∧ WritesPath rd v s t ∧
    (∀ j < 256, v.getLsbD j = (decide (s.sr.toNat < j) && (s.getP rs).getLsbD j)) ∧
    (s.sr = 255#8 → v = zero256) ∧
    ∀ start : Index, start.toNat = s.sr.toNat + 1 → v = copyBits (s.getP rs) start

/-- R60 item 1. -/
def Obligations.PrefixesCompose : Prop :=
  (∀ v, copyBits v 0#8 = v) ∧
  (∀ v (s t m : Index), m.toNat = max s.toNat t.toNat → copyBits (copyBits v s) t = copyBits v m) ∧
  ∀ v (h g m : Index), m.toNat = max h.toNat g.toNat → parentPath (parentPath v h) g = parentPath v m

/-- R60 items 2 and 3, R55: symmetry, the highest set bit of the XOR or 0 where that is zero, and when the height
is 0. -/
def Obligations.ForkHeightSymmetricAndZero : Prop :=
  (∀ a b, forkHeight a b = forkHeight b a) ∧
  (∀ a b, a ^^^ b ≠ 0#256 → HighestSetBit (a ^^^ b) (forkHeight a b)) ∧
  (∀ a b, a ^^^ b = 0#256 → forkHeight a b = 0#8) ∧
  ∀ a b, forkHeight a b = 0#8 ↔ (a ^^^ b = 0#256 ∨ a ^^^ b = 1#256)

/-- R60 item 4: two different values differ at their fork height and agree above it, and at that height and above, and
only there, their parent paths agree; the one at the fork height is their common ancestor. Equal values have equal parent
paths at every height. -/
def Obligations.CommonAncestorAtForkHeight : Prop :=
  (∀ a b, a ≠ b → bitAt a (forkHeight a b).toNat ≠ bitAt b (forkHeight a b).toNat ∧
    AgreeAbove (forkHeight a b) a b) ∧
  (∀ a b, a ≠ b → ∀ g : Index, parentPath a g = parentPath b g ↔ (forkHeight a b).toNat ≤ g.toNat) ∧
  (∀ a b, commonAncestor a b = commonAncestor b a ∧ commonAncestor a b = parentPath a (forkHeight a b) ∧
    commonAncestor a b = parentPath b (forkHeight a b)) ∧
  ∀ a b g, a = b → parentPath a g = parentPath b g

/-- R60 item 5: the scanner and the comparator look at the same bit, in the order's bit form and in its number form. -/
def Obligations.ForkBitDecidesOrder : Prop :=
  ∀ a b, a ≠ b → (LtByNumber a b ↔ bitAt a (forkHeight a b).toNat = false) ∧
    (LtByBits a b ↔ bitAt a (forkHeight a b).toNat = false)

/-- R60 item 6: a prefix is not above its value, and equal to it exactly when the cleared bits were zero. -/
def Obligations.PrefixNotAboveValue : Prop :=
  (∀ v h, AtMost (parentPath v h) v ∧ (parentPath v h = v ↔ ∀ j ≤ h.toNat, bitAt v j = false)) ∧
  ∀ v s, AtMost (copyBits v s) v ∧ (copyBits v s = v ↔ ∀ j < s.toNat, bitAt v j = false)

/-- R77, R34, R60 item 4: FORKH followed at once by the SR forms of PARENT on its two operands leaves the same value, the
common ancestor, in both destinations. -/
def Obligations.ForkThenParentsAgree : Prop :=
  ∀ rs rt d e s, d ≠ rt → d ≠ e → ∃ t u w, exec (.forkh rs rt) s = .next t ∧ exec (.parentX d rs) t = .next u ∧
    exec (.parentX e rt) u = .next w ∧ w.getP d = w.getP e ∧
    w.getP d = commonAncestor (s.getP rs) (s.getP rt)

/-- R41: MOV is COPYB with start 0 and copies the whole value; onto itself it changes no state and answers zero data. -/
def Obligations.MovCopiesValue : Prop :=
  (∀ d s, Instr.mov d s = .copybI d s 0#8) ∧
  (∀ d r s, ∃ t, exec (Instr.mov d r) s = .next t ∧ WritesPath d (s.getP r) s t) ∧
  ∀ r s, ∃ t, exec (Instr.mov r r) s = .next t ∧ OnlyAnswers 0#256 s t

/-! ## Values and their order -/

/-- R10: the vector, the bits and the number are one value. -/
def Obligations.ValueViewsAgree : Prop :=
  (∀ (v : Value) (k : Nat), k < 32 → byteAt v k = v.extractLsb' (8 * k) 8) ∧
  (∀ (v : Value) (i : Nat), i < 256 → bitAt v i = v.getLsbD i) ∧
  (∀ v, number v = ∑ k ∈ Finset.range 32, (byteAt v k).toNat * 2 ^ (8 * k)) ∧
  (∀ v, number v = ∑ i ∈ Finset.range 256, (if bitAt v i then 1 else 0) * 2 ^ i) ∧
  (∀ n < 2 ^ 256, ∃! v, number v = n) ∧ (∀ v, number v < 2 ^ 256) ∧
  ∀ v, bitAt v 255 = true ↔ 2 ^ 255 ≤ number v

/-- R13: equality by bits, by bytes and by number, and as CMP reports it. -/
def Obligations.EqualityThreeForms : Prop :=
  ∀ a b : Value, (a = b ↔ ∀ i < 256, bitAt a i = bitAt b i) ∧ (a = b ↔ ∀ k < 32, byteAt a k = byteAt b k) ∧
    (a = b ↔ number a = number b) ∧
    ∀ rs rt s, s.getP rs = a → s.getP rt = b → ∃ t, exec (.cmp rs rt) s = .next t ∧ (t.eq = true ↔ a = b)

/-- R61: the three forms of the order agree, and a value with bit 255 set is above every value without it. -/
def Obligations.OrderThreeForms : Prop :=
  (∀ a b, (LtByBits a b ↔ LtByNumber a b) ∧ (LtByBytes a b ↔ LtByNumber a b)) ∧
  ∀ a b, bitAt a 255 = true → bitAt b 255 = false → LtByBits b a

/-- R63: the order is a strict total order consistent with equality, and what that means for CMP. -/
def Obligations.OrderIsStrictTotal : Prop :=
  (∀ a, ¬LtByBits a a) ∧
  (∀ a b c, LtByBits a b → LtByBits b c → LtByBits a c) ∧
  (∀ a b, LtByBits a b ∨ a = b ∨ LtByBits b a) ∧
  (∀ a b, ¬(LtByBits a b ∧ a = b) ∧ ¬(LtByBits a b ∧ LtByBits b a) ∧ ¬(a = b ∧ LtByBits b a)) ∧
  (∀ a b, (a = b ↔ ¬LtByBits a b ∧ ¬LtByBits b a) ∧ (a = b ↔ ∀ i < 256, bitAt a i = bitAt b i)) ∧
  (∀ rs rt s, ∃ t, exec (.cmp rs rt) s = .next t ∧
    (t.lt, t.eq, t.gt) ∈ [(true, false, false), (false, true, false), (false, false, true)] ∧
    (t.eq = true ↔ s.getP rs = s.getP rt)) ∧
  ∀ p q r s t u w, exec (.cmp p q) s = .next t → t.lt = true → exec (.cmp q r) t = .next u → u.lt = true →
    exec (.cmp p r) u = .next w → w.lt = true

/-- R62: CMP writes the three comparisons of the unsigned numbers. -/
def Obligations.CmpWritesOrder : Prop :=
  EncodedAs 0xFFFFC3FF#32 0x00000040#32 (fun g => .cmp (.ofBits g.rs1) (.ofBits g.rs2)) ∧
  ∀ rs rt s, ∃ t lt eq gt, exec (.cmp rs rt) s = .next t ∧ WritesFlags lt eq gt s t ∧
    (lt = true ↔ (s.getP rs).toNat < (s.getP rt).toNat) ∧ (eq = true ↔ (s.getP rs).toNat = (s.getP rt).toNat) ∧
    (gt = true ↔ (s.getP rs).toNat > (s.getP rt).toNat) ∧
    (lt, eq, gt) ∈ [(true, false, false), (false, true, false), (false, false, true)] ∧
    t.status.extractLsb' 8 3 = BitVec.ofBool gt ++ (BitVec.ofBool eq ++ BitVec.ofBool lt) ∧
    ∃ u, exec (.cmp rt rs) s = .next u ∧ u.lt = gt ∧ u.eq = eq ∧ u.gt = lt

/-! ## Reference structures -/

/-- R56: the leading-one detector finds the highest set bit, and the scanner tree computes the fork height. -/
def Obligations.ScannerTreeComputesForkHeight : Prop :=
  (∀ m (x : BitVec (2 ^ m)), ((leadingOne m x).1 = true ↔ x ≠ 0#(2 ^ m)) ∧
    (x = 0#(2 ^ m) → (leadingOne m x).2 = 0#m) ∧
    (x ≠ 0#(2 ^ m) → x.getLsbD (leadingOne m x).2.toNat = true ∧
      ∀ j, (leadingOne m x).2.toNat < j → x.getLsbD j = false)) ∧
  ∀ a b, scannerTree a b = forkHeight a b

/-- R59: the mask's bits, and COPYB and PARENT as one AND with it. -/
def Obligations.MaskerComputesPrefixes : Prop :=
  (∀ s : BitVec 9, s.toNat ≤ 256 → ∀ j < 256, (mask s).getLsbD j = decide (s.toNat ≤ j)) ∧
  mask 256#9 = zero256 ∧
  (∀ v start, copyMasked v start = copyBits v start) ∧
  ∀ v height, parentMasked v height = parentPath v height

/-- R64: every bracketing of the 32 byte leaves, and of the 256 bit leaves, that keeps their order computes CMP's flags;
the balanced tree is one. -/
def Obligations.ComparatorTreeComputesOrder : Prop :=
  (∀ (b : Bracketing) x y, b.leaves = downFrom 32 → b.eval (cmpLeaf x y) = compareValues x y) ∧
  (∀ (b : Bracketing) x y, b.leaves = downFrom 256 → b.eval (cmpBitLeaf x y) = compareValues x y) ∧
  ∀ x y, comparatorTree x y = compareValues x y

/-! ## Whole-machine rules -/

/-- R15: a path register changes in a step only where a legal command names it as destination, or at a reset. -/
def Obligations.PathRegistersChangeOnlyAsDestination : Prop :=
  (∀ s t r, step s = .next t → t.getP r ≠ s.getP r →
    PresentsReset s ∨ PresentsLegal s (fun i => destination i = some r)) ∧
  ∀ i s t r, exec i s = .next t → destination i ≠ some r → t.getP r = s.getP r

/-- R16: `SR` changes only by GETBIT, ISRIGHT, ISZERO and FORKH (or reset), the first three write 0x00 or 0x01, and every
response shows it in `STATUS[7:0]`. -/
def Obligations.ScalarWrittenByFourInstructions : Prop :=
  (∀ s t, step s = .next t → t.sr ≠ s.sr → PresentsReset s ∨ PresentsLegal s (fun i => writesScalar i = true)) ∧
  (∀ i s t, exec i s = .next t → writesScalar i = true →
    (∃ rs rt, i = .forkh rs rt) ∨ t.sr = 0x00#8 ∨ t.sr = 0x01#8) ∧
  ∀ s cw din rest, s.host = .command cw din :: rest →
    ∃ t r, step s = .next t ∧ t.rsp = some r ∧ r.status.extractLsb' 0 8 = t.sr

/-- R17: the flags change only by CMP (or reset), CMP leaves exactly one set, and once one is set one stays set until a
reset. -/
def Obligations.FlagsWrittenByCmpAlone : Prop :=
  (∀ s t, step s = .next t → (t.lt, t.eq, t.gt) ≠ (s.lt, s.eq, s.gt) →
    PresentsReset s ∨ PresentsLegal s (fun i => writesFlags i = true)) ∧
  (∀ i s t, exec i s = .next t → writesFlags i = true →
    (t.lt, t.eq, t.gt) ∈ [(true, false, false), (false, true, false), (false, false, true)]) ∧
  ∀ s t, step s = .next t → ¬PresentsReset s → (s.lt = true ∨ s.eq = true ∨ s.gt = true) →
    (t.lt = true ∨ t.eq = true ∨ t.gt = true)

/-- R17: no command reads the flags: other flags before it change neither the registers it leaves nor its data. -/
def Obligations.FlagsReadByNoCommand : Prop :=
  ∀ i s c t, exec i s = .next t → ∃ u, exec i (s.setCC c) = .next u ∧ SamePaths t u ∧ u.sr = t.sr ∧
    u.ill = t.ill ∧ (writesFlags i = true → SameFlags t u) ∧ (writesFlags i = false → SameFlags (s.setCC c) u) ∧
    ∀ data, Answers data t → Answers data u

/-- R18: `ILL` is set by an illegal command and by nothing else, cleared by reset alone, read by no instruction, and shown
in `STATUS[11]` of every response. -/
def Obligations.IllSticky : Prop :=
  (∀ s cw din rest t, s.host = .command cw din :: rest → step s = .next t →
    (t.ill = true ↔ s.ill = true ∨ IllegalCommand cw) ∧ ∃ r, t.rsp = some r ∧ r.status.getLsbD 11 = t.ill) ∧
  (∀ s t, s.host = [] → step s = .next t → t.ill = s.ill) ∧
  (∀ s t, PresentsReset s → step s = .next t → t.ill = false) ∧
  ∀ i (s : State) b t, exec i s = .next t → ∃ u, exec i { s with ill := b } = .next u ∧ SamePaths t u ∧ u.sr = t.sr ∧
    SameFlags t u ∧ ∀ data, Answers data t → Answers data u

/-- R19: the fields of `STATUS`, that a response shows it after the command, and its legal flag values. -/
def Obligations.StatusShowsStateAfter : Prop :=
  (∀ s : State, s.status.extractLsb' 0 8 = s.sr ∧ s.status.getLsbD 8 = s.lt ∧ s.status.getLsbD 9 = s.eq ∧
    s.status.getLsbD 10 = s.gt ∧ s.status.getLsbD 11 = s.ill) ∧
  (∀ s cw din rest, s.host = .command cw din :: rest →
    ∃ t r, step s = .next t ∧ t.rsp = some r ∧ r.status = t.status) ∧
  ∀ s : State, s.FlagsLegal → s.status.extractLsb' 8 3 ∈ [0b000#3, 0b001#3, 0b010#3, 0b100#3]

/-! ## Clock edges -/

/-- R31: a command presented while the unit is ready is accepted at that edge with its state unchanged, is performed at
the next with the result of `step`, its response stands for one cycle, and the unit is ready again with it. -/
def Obligations.HandshakePerformsStep : Prop :=
  ∀ (c : Clocked) (p : PortsIn), c.phase = .ready → p.rst = false → p.cmdValid = true →
    ∃ c₁, clockEdge p c = .next c₁ ∧ SameArch c.unit c₁.unit ∧
      c₁.outputs false = { cmdReady := false, rsp := none } ∧
      ∀ q, q.rst = false → ∃ c₂ r, clockEdge q c₁ = .next c₂ ∧
        step { c.unit with host := .command p.cmdWord p.cmdData :: c.unit.host } = .next c₂.unit ∧
        c₂.unit.rsp = some r ∧ c₂.outputs false = { cmdReady := true, rsp := some r } ∧
        ∀ w, w.rst = false → ∃ c₃, clockEdge w c₂ = .next c₃ ∧ (c₃.outputs false).rsp = none ∧
          (w.cmdValid = true → c₃.phase = .performing w.cmdWord)

/-- R74: an edge with `rst = 1` gives every element its reset value and drops what was in flight; while `rst` is 1 the
unit is not ready and gives no response; the next edge with `rst = 0` can accept; without reset `ILL` stays and only a
command changes state. -/
def Obligations.ResetEdgeClears : Prop :=
  (∀ p c, p.rst = true → ∃ c₁, clockEdge p c = .next c₁ ∧ c₁.phase = .ready ∧
    (∀ r, c₁.unit.getP r = zero256) ∧ c₁.unit.sr = 0x00#8 ∧ c₁.unit.lt = false ∧ c₁.unit.eq = false ∧
    c₁.unit.gt = false ∧ c₁.unit.ill = false ∧ c₁.unit.rsp = none ∧
    ∀ q, q.rst = false → q.cmdValid = true → ∃ c₂, clockEdge q c₁ = .next c₂ ∧ c₂.phase = .performing q.cmdWord) ∧
  (∀ c : Clocked, c.outputs true = { cmdReady := false, rsp := none }) ∧
  ∀ p c c₁, p.rst = false → clockEdge p c = .next c₁ →
    (c.unit.ill = true → c₁.unit.ill = true) ∧ (c.phase = .ready → SameArch c.unit c₁.unit)

/-- R17, R19, R31: a clock edge keeps the invariant, whatever is on the input ports and whatever phase the unit is in. -/
def Obligations.ClockEdgeKeepsInvariant : Prop :=
  ∀ p c c₁, c.unit.Inv → clockEdge p c = .next c₁ → c₁.unit.Inv

/-! ## Assembler -/

/-- R40: the line that writes an instruction assembles to it, with a data-in value it cannot tell from the given one. -/
def Obligations.AssembledLineIsInstruction : Prop :=
  ∀ i din, ∃ d, (asmOf i din).assemble = some (i, d) ∧ dinAgrees i din d
end

