-- ==== Sys2Proof/Laws/Decode.lean ====
section
/-! SUPPORT. The fields of a word and the word of given fields are inverse to each other, and a row of rule R37 matches
a word exactly where the field rule of R33 admits its fields. -/

namespace Sys2Proof

@[simp] theorem PReg.ofBits_toBits (r : PReg) : PReg.ofBits r.toBits = r := by cases r <;> rfl

@[simp] theorem PReg.toBits_ofBits (n : BitVec 2) : (PReg.ofBits n).toBits = n := by revert n; decide

@[simp] theorem Family.ofBit_toBit (f : Family) : Family.ofBit f.toBit = f := by cases f <;> rfl

@[simp] theorem Family.toBit_ofBit (b : BitVec 1) : (Family.ofBit b).toBit = b := by revert b; decide

/-- The fields of the word of given fields (R32). -/
@[simp] theorem Fields.ofWord_toWord (g : Fields) : Fields.ofWord g.toWord = g := by
  cases g
  simp only [Fields.ofWord, Fields.toWord, Fields.mk.injEq]
  refine ⟨?_, ?_, ?_, ?_, ?_, ?_, ?_, ?_⟩ <;>
    · apply BitVec.eq_of_getLsbD_eq
      intro j hj
      simp only [BitVec.getLsbD_extractLsb', BitVec.getLsbD_append, hj, decide_true, Bool.true_and]
      repeat' split
      all_goals first | omega | (congr 1; omega)

/-- The word of a word's fields (R32). -/
@[simp] theorem Fields.toWord_ofWord (cw : CmdWord) : (Fields.ofWord cw).toWord = cw := by
  apply BitVec.eq_of_getLsbD_eq
  intro j hj
  simp only [Fields.ofWord, Fields.toWord, BitVec.getLsbD_extractLsb', BitVec.getLsbD_append]
  repeat' split
  all_goals
    rw [decide_eq_true (by omega), Bool.true_and]
    congr 1; omega

theorem Fields.toWord_inj {g h : Fields} (e : g.toWord = h.toWord) : g = h := by
  rw [← Fields.ofWord_toWord g, e, Fields.ofWord_toWord]

/-- A mask works field by field. -/
theorem Fields.toWord_and (g m : Fields) :
    g.toWord &&& m.toWord =
      Fields.toWord ⟨g.op &&& m.op, g.rd &&& m.rd, g.rs1 &&& m.rs1, g.rs2 &&& m.rs2, g.x &&& m.x, g.f &&& m.f,
        g.idx &&& m.idx, g.z &&& m.z⟩ := by
  apply BitVec.eq_of_getLsbD_eq
  intro j hj
  rw [BitVec.getLsbD_and]
  simp only [Fields.toWord, BitVec.getLsbD_append, BitVec.getLsbD_and]
  repeat' split
  all_goals rfl

/-- A row of R37 matches exactly the words whose fields its form admits by R33. -/
theorem Form.row_matchesWord (r : Form) (cw : CmdWord) : r.row.matchesWord cw = r.admits (Fields.ofWord cw) := by
  obtain ⟨g, rfl⟩ : ∃ g : Fields, cw = g.toWord := ⟨_, (Fields.toWord_ofWord cw).symm⟩
  rw [Fields.ofWord_toWord, Bool.eq_iff_iff, Row.matchesWord, beq_iff_eq]
  have key : ∀ m p : Fields, r.row.mask = m.toWord → r.row.pattern = p.toWord →
      (g.toWord &&& r.row.mask = r.row.pattern ↔ Fields.mk (g.op &&& m.op) (g.rd &&& m.rd) (g.rs1 &&& m.rs1)
        (g.rs2 &&& m.rs2) (g.x &&& m.x) (g.f &&& m.f) (g.idx &&& m.idx) (g.z &&& m.z) = p) := by
    intro m p hm hp
    rw [hm, hp, Fields.toWord_and]
    exact ⟨Fields.toWord_inj, congrArg _⟩
  have a8 : ∀ v : BitVec 8, v &&& 255#8 = v := fun v => BitVec.and_allOnes (x := v)
  have a2 : ∀ v : BitVec 2, v &&& 3#2 = v := fun v => BitVec.and_allOnes (x := v)
  have a1 : ∀ v : BitVec 1, v &&& 1#1 = v := fun v => BitVec.and_allOnes (x := v)
  rw [key (Fields.ofWord r.row.mask) (Fields.ofWord r.row.pattern) (Fields.toWord_ofWord _).symm
    (Fields.toWord_ofWord _).symm]
  cases r <;>
    simp [Form.row, Form.admits, Form.op, Form.format, Format.fieldUse, unusedZero, Fields.ofWord, a8, a2, a1] <;>
    tauto

theorem Form.row_form (r : Form) : r.row.form = r := by cases r <;> rfl

theorem Form.mem_all (r : Form) : r ∈ Form.all := by cases r <;> decide

end Sys2Proof
end

