-- ==== Sys2Proof/Laws/State.lean ====
section
/-! SUPPORT. One lemma per field per update of the state, so that no proof unfolds a record update. -/

namespace Sys2Proof.Machine

variable (s : State)

@[simp] theorem State.setP_sr (r : PReg) (v : Value) : (s.setP r v).sr = s.sr := by cases r <;> rfl
@[simp] theorem State.setP_lt (r : PReg) (v : Value) : (s.setP r v).lt = s.lt := by cases r <;> rfl
@[simp] theorem State.setP_eq (r : PReg) (v : Value) : (s.setP r v).eq = s.eq := by cases r <;> rfl
@[simp] theorem State.setP_gt (r : PReg) (v : Value) : (s.setP r v).gt = s.gt := by cases r <;> rfl
@[simp] theorem State.setP_ill (r : PReg) (v : Value) : (s.setP r v).ill = s.ill := by cases r <;> rfl
@[simp] theorem State.setP_din (r : PReg) (v : Value) : (s.setP r v).din = s.din := by cases r <;> rfl
@[simp] theorem State.setP_rsp (r : PReg) (v : Value) : (s.setP r v).rsp = s.rsp := by cases r <;> rfl
@[simp] theorem State.setP_host (r : PReg) (v : Value) : (s.setP r v).host = s.host := by cases r <;> rfl

@[simp] theorem State.setP_getP_same (r : PReg) (v : Value) : (s.setP r v).getP r = v := by cases r <;> rfl

theorem State.setP_getP_ne {r q : PReg} (v : Value) (h : q ≠ r) : (s.setP r v).getP q = s.getP q := by
  cases r <;> cases q <;> first | rfl | exact absurd rfl h

@[simp] theorem State.setP_status (r : PReg) (v : Value) : (s.setP r v).status = s.status := by cases r <;> rfl

@[simp] theorem State.setSR_getP (v : BitVec 8) (q : PReg) : (s.setSR v).getP q = s.getP q := by cases q <;> rfl
@[simp] theorem State.setSR_sr (v : BitVec 8) : (s.setSR v).sr = v := rfl
@[simp] theorem State.setSR_lt (v : BitVec 8) : (s.setSR v).lt = s.lt := rfl
@[simp] theorem State.setSR_eq (v : BitVec 8) : (s.setSR v).eq = s.eq := rfl
@[simp] theorem State.setSR_gt (v : BitVec 8) : (s.setSR v).gt = s.gt := rfl
@[simp] theorem State.setSR_ill (v : BitVec 8) : (s.setSR v).ill = s.ill := rfl
@[simp] theorem State.setSR_din (v : BitVec 8) : (s.setSR v).din = s.din := rfl
@[simp] theorem State.setSR_rsp (v : BitVec 8) : (s.setSR v).rsp = s.rsp := rfl
@[simp] theorem State.setSR_host (v : BitVec 8) : (s.setSR v).host = s.host := rfl

@[simp] theorem State.setCC_getP (c : Order3) (q : PReg) : (s.setCC c).getP q = s.getP q := by cases q <;> rfl
@[simp] theorem State.setCC_sr (c : Order3) : (s.setCC c).sr = s.sr := rfl
@[simp] theorem State.setCC_lt (c : Order3) : (s.setCC c).lt = c.lt := rfl
@[simp] theorem State.setCC_eq (c : Order3) : (s.setCC c).eq = c.eq := rfl
@[simp] theorem State.setCC_gt (c : Order3) : (s.setCC c).gt = c.gt := rfl
@[simp] theorem State.setCC_ill (c : Order3) : (s.setCC c).ill = s.ill := rfl
@[simp] theorem State.setCC_din (c : Order3) : (s.setCC c).din = s.din := rfl
@[simp] theorem State.setCC_rsp (c : Order3) : (s.setCC c).rsp = s.rsp := rfl
@[simp] theorem State.setCC_host (c : Order3) : (s.setCC c).host = s.host := rfl

@[simp] theorem State.respond_getP (d : Value) (q : PReg) : (s.respond d).getP q = s.getP q := by cases q <;> rfl
@[simp] theorem State.respond_sr (d : Value) : (s.respond d).sr = s.sr := rfl
@[simp] theorem State.respond_lt (d : Value) : (s.respond d).lt = s.lt := rfl
@[simp] theorem State.respond_eq (d : Value) : (s.respond d).eq = s.eq := rfl
@[simp] theorem State.respond_gt (d : Value) : (s.respond d).gt = s.gt := rfl
@[simp] theorem State.respond_ill (d : Value) : (s.respond d).ill = s.ill := rfl
@[simp] theorem State.respond_din (d : Value) : (s.respond d).din = s.din := rfl
@[simp] theorem State.respond_rsp (d : Value) : (s.respond d).rsp = some ⟨false, s.status, d⟩ := rfl
@[simp] theorem State.respond_host (d : Value) : (s.respond d).host = s.host := rfl

@[simp] theorem State.respond_status (d : Value) : (s.respond d).status = s.status := rfl

@[simp] theorem State.complete_getP (q : PReg) : (s.complete).getP q = s.getP q := by cases q <;> rfl
@[simp] theorem State.complete_sr : (s.complete).sr = s.sr := rfl
@[simp] theorem State.complete_lt : (s.complete).lt = s.lt := rfl
@[simp] theorem State.complete_eq : (s.complete).eq = s.eq := rfl
@[simp] theorem State.complete_gt : (s.complete).gt = s.gt := rfl
@[simp] theorem State.complete_ill : (s.complete).ill = s.ill := rfl
@[simp] theorem State.complete_din : (s.complete).din = s.din := rfl
@[simp] theorem State.complete_rsp : (s.complete).rsp = some ⟨false, s.status, 0#256⟩ := rfl
@[simp] theorem State.complete_host : (s.complete).host = s.host := rfl

@[simp] theorem State.complete_status : s.complete.status = s.status := rfl

@[simp] theorem State.raiseIllegalCommand_getP (q : PReg) : (s.raiseIllegalCommand).getP q = s.getP q := by cases q <;> rfl
@[simp] theorem State.raiseIllegalCommand_sr : (s.raiseIllegalCommand).sr = s.sr := rfl
@[simp] theorem State.raiseIllegalCommand_lt : (s.raiseIllegalCommand).lt = s.lt := rfl
@[simp] theorem State.raiseIllegalCommand_eq : (s.raiseIllegalCommand).eq = s.eq := rfl
@[simp] theorem State.raiseIllegalCommand_gt : (s.raiseIllegalCommand).gt = s.gt := rfl
@[simp] theorem State.raiseIllegalCommand_ill : (s.raiseIllegalCommand).ill = true := rfl
@[simp] theorem State.raiseIllegalCommand_din : (s.raiseIllegalCommand).din = s.din := rfl
@[simp] theorem State.raiseIllegalCommand_rsp : (s.raiseIllegalCommand).rsp = some ⟨true, s.raiseIllegalCommand.status, 0#256⟩ := rfl
@[simp] theorem State.raiseIllegalCommand_host : (s.raiseIllegalCommand).host = s.host := rfl

@[simp] theorem State.accept_getP (d : Value) (rest : List HostEvent) (q : PReg) : (s.accept d rest).getP q = s.getP q := by cases q <;> rfl
@[simp] theorem State.accept_sr (d : Value) (rest : List HostEvent) : (s.accept d rest).sr = s.sr := rfl
@[simp] theorem State.accept_lt (d : Value) (rest : List HostEvent) : (s.accept d rest).lt = s.lt := rfl
@[simp] theorem State.accept_eq (d : Value) (rest : List HostEvent) : (s.accept d rest).eq = s.eq := rfl
@[simp] theorem State.accept_gt (d : Value) (rest : List HostEvent) : (s.accept d rest).gt = s.gt := rfl
@[simp] theorem State.accept_ill (d : Value) (rest : List HostEvent) : (s.accept d rest).ill = s.ill := rfl
@[simp] theorem State.accept_din (d : Value) (rest : List HostEvent) : (s.accept d rest).din = d := rfl
@[simp] theorem State.accept_rsp (d : Value) (rest : List HostEvent) : (s.accept d rest).rsp = s.rsp := rfl
@[simp] theorem State.accept_host (d : Value) (rest : List HostEvent) : (s.accept d rest).host = rest := rfl

@[simp] theorem State.accept_status (d : Value) (rest : List HostEvent) : (s.accept d rest).status = s.status := rfl

@[simp] theorem State.idle_getP (q : PReg) : (s.idle).getP q = s.getP q := by cases q <;> rfl
@[simp] theorem State.idle_sr : (s.idle).sr = s.sr := rfl
@[simp] theorem State.idle_lt : (s.idle).lt = s.lt := rfl
@[simp] theorem State.idle_eq : (s.idle).eq = s.eq := rfl
@[simp] theorem State.idle_gt : (s.idle).gt = s.gt := rfl
@[simp] theorem State.idle_ill : (s.idle).ill = s.ill := rfl
@[simp] theorem State.idle_din : (s.idle).din = s.din := rfl
@[simp] theorem State.idle_rsp : (s.idle).rsp = none := rfl
@[simp] theorem State.idle_host : (s.idle).host = s.host := rfl

@[simp] theorem State.idle_status : s.idle.status = s.status := rfl

@[simp] theorem State.resetUnit_sr (rest : List HostEvent) : (State.resetUnit rest).sr = 0#8 := rfl
@[simp] theorem State.resetUnit_lt (rest : List HostEvent) : (State.resetUnit rest).lt = false := rfl
@[simp] theorem State.resetUnit_eq (rest : List HostEvent) : (State.resetUnit rest).eq = false := rfl
@[simp] theorem State.resetUnit_gt (rest : List HostEvent) : (State.resetUnit rest).gt = false := rfl
@[simp] theorem State.resetUnit_ill (rest : List HostEvent) : (State.resetUnit rest).ill = false := rfl
@[simp] theorem State.resetUnit_din (rest : List HostEvent) : (State.resetUnit rest).din = 0#256 := rfl
@[simp] theorem State.resetUnit_rsp (rest : List HostEvent) : (State.resetUnit rest).rsp = none := rfl
@[simp] theorem State.resetUnit_host (rest : List HostEvent) : (State.resetUnit rest).host = rest := rfl
@[simp] theorem State.resetUnit_status (rest : List HostEvent) : (State.resetUnit rest).status = 0#12 := by
  simp [State.status]
@[simp] theorem State.resetUnit_getP (rest : List HostEvent) (q : PReg) : (State.resetUnit rest).getP q = zero256 := by cases q <;> rfl

/-- Two states with the same fields are the same state, the registers taken through `getP`. -/
theorem State.ext_getP {s t : State} (hp : ∀ q, t.getP q = s.getP q) (hsr : t.sr = s.sr) (hlt : t.lt = s.lt)
    (heq : t.eq = s.eq) (hgt : t.gt = s.gt) (hill : t.ill = s.ill) (hdin : t.din = s.din) (hrsp : t.rsp = s.rsp)
    (hhost : t.host = s.host) : t = s := by
  have h0 := hp .p0; have h1 := hp .p1; have h2 := hp .p2; have h3 := hp .p3
  cases s; cases t; simp_all [State.getP]

/-- The bits of `STATUS` (R19): it depends on `SR`, the flags and `ILL` alone. -/
theorem State.status_congr {s t : State} (hsr : t.sr = s.sr) (hlt : t.lt = s.lt) (heq : t.eq = s.eq)
    (hgt : t.gt = s.gt) (hill : t.ill = s.ill) : t.status = s.status := by
  simp only [State.status, hsr, hlt, heq, hgt, hill]

end Sys2Proof.Machine
end

