-- ==== Sys2Proof/Laws/Value.lean ====
section
/-! SUPPORT. What the operations on values do, bit by bit: one lemma per operation of Machine/Value.lean, which later
proofs cite instead of unfolding it. -/

namespace Sys2Proof.Machine

/-! ### Bytes, bits and numbers (R8 to R10) -/

theorem bytesNumber_lt (t : Nat → Byte) (n : Nat) : bytesNumber t n < 2 ^ (8 * n) := by
  induction n with
  | zero => simp [bytesNumber]
  | succ n ih =>
    have hb : (t n).toNat < 2 ^ 8 := (t n).isLt
    have hp : 2 ^ (8 * (n + 1)) = 2 ^ 8 * 2 ^ (8 * n) := by rw [← Nat.pow_add]; congr 1; omega
    have : ((t n).toNat + 1) * 2 ^ (8 * n) ≤ 2 ^ 8 * 2 ^ (8 * n) := Nat.mul_le_mul_right _ hb
    rw [hp, bytesNumber, Nat.mul_comm _ (t n).toNat]
    rw [Nat.add_mul, Nat.one_mul] at this
    omega

theorem testBit_bytesNumber (t : Nat → Byte) (n i : Nat) :
    (bytesNumber t n).testBit i = (decide (i < 8 * n) && (t (i / 8)).getLsbD (i % 8)) := by
  induction n with
  | zero => simp [bytesNumber]
  | succ n ih =>
    rw [bytesNumber, Nat.add_comm, Nat.testBit_two_pow_mul_add _ (bytesNumber_lt t n), ih]
    by_cases h : i < 8 * n
    · simp [h, show i < 8 * (n + 1) by omega]
    · simp only [h, if_false]
      by_cases h' : i < 8 * (n + 1)
      · have hd : i / 8 = n := by omega
        have hm : i % 8 = i - 8 * n := by omega
        simp [h', hd, hm, BitVec.getLsbD]
      · have : (t n).getLsbD (i - 8 * n) = false := BitVec.getLsbD_of_ge _ _ (by omega)
        simpa [h', BitVec.getLsbD] using this

/-- A bit of the value with given bytes. -/
theorem getLsbD_ofBytes (t : Nat → Byte) (i : Nat) :
    (ofBytes t).getLsbD i = (decide (i < 256) && (t (i / 8)).getLsbD (i % 8)) := by
  rw [ofBytes, BitVec.getLsbD_ofNat, testBit_bytesNumber]
  by_cases h : i < 256 <;> simp [h]

theorem getLsbD_byteAt (v : Value) (k j : Nat) :
    (byteAt v k).getLsbD j = (decide (j < 8) && v.getLsbD (8 * k + j)) := by
  simp [byteAt, BitVec.getLsbD_extractLsb']

/-- The bit of the byte that holds bit `j` is bit `j`. -/
theorem getLsbD_byteAt_div (v : Value) (j : Nat) : (byteAt v (j / 8)).getLsbD (j % 8) = v.getLsbD j := by
  rw [getLsbD_byteAt, show 8 * (j / 8) + j % 8 = j by omega, decide_eq_true (show j % 8 < 8 by omega),
    Bool.true_and]

/-- The byte view of the value with given bytes (R8). -/
theorem byteAt_ofBytes (t : Nat → Byte) {k : Nat} (hk : k < 32) : byteAt (ofBytes t) k = t k := by
  apply BitVec.eq_of_getLsbD_eq
  intro j hj
  have h1 : (8 * k + j) / 8 = k := by omega
  have h2 : (8 * k + j) % 8 = j := by omega
  rw [getLsbD_byteAt, getLsbD_ofBytes, h1, h2, decide_eq_true hj, decide_eq_true (show 8 * k + j < 256 by omega),
    Bool.true_and, Bool.true_and]

/-- Bit `i` of the value is bit `i` of its vector (R9, R10). -/
theorem bitAt_eq_getLsbD (v : Value) (i : Nat) : bitAt v i = v.getLsbD i := by
  have key : ∀ (b : Byte) (r : Nat), ((b >>> r) &&& 1#8 == 1#8) = b.getLsbD r := by
    intro b r
    have h : (b >>> r) &&& 1#8 = if b.getLsbD r then 1#8 else 0#8 := by
      apply BitVec.eq_of_getLsbD_eq
      intro j hj
      by_cases hb : b.getLsbD r = true
      · rcases Nat.eq_zero_or_pos j with rfl | hj0
        · simp [hb]
        · have : (1#8).getLsbD j = false := by simp; omega
          simp [hb, this]
      · rcases Nat.eq_zero_or_pos j with rfl | hj0
        · simp [hb]
        · have : (1#8).getLsbD j = false := by simp; omega
          simp [hb, this]
    by_cases hb : b.getLsbD r = true <;> simp [h, hb]
  have hi : 8 * (i / 8) + i % 8 = i := by omega
  rw [bitAt, key, getLsbD_byteAt, hi]
  simp [show i % 8 < 8 by omega]

/-- Two values are equal when their bits at 0 to 255 are. -/
theorem value_eq_of_bits {a b : Value} (h : ∀ i < 256, a.getLsbD i = b.getLsbD i) : a = b :=
  BitVec.eq_of_getLsbD_eq fun i hi => h i hi

/-- A value is the value of its bytes (R10). -/
theorem ofBytes_byteAt (v : Value) : ofBytes (byteAt v) = v := by
  apply value_eq_of_bits
  intro i hi
  rw [getLsbD_ofBytes, getLsbD_byteAt_div, decide_eq_true hi, Bool.true_and]

/-- The number view is the number of the vector (R10). -/
theorem number_eq_toNat (v : Value) : number v = v.toNat := by
  have h := congrArg BitVec.toNat (ofBytes_byteAt v)
  rwa [ofBytes, BitVec.toNat_ofNat, Nat.mod_eq_of_lt (bytesNumber_lt _ 32)] at h

/-! ### Bit accessors (R50, R51, R53) -/

theorem getLsbD_one_shiftLeft (r j : Nat) (hj : j < 8) : ((1#8) <<< r).getLsbD j = decide (j = r) := by
  simp only [BitVec.getLsbD_shiftLeft, hj, decide_true, Bool.true_and]
  by_cases h : j < r
  · simp [h, show j ≠ r by omega]
  · simp [h]; omega

/-- SETBIT's effect: bit `i` becomes 1, the others stay. -/
theorem getLsbD_setBit (v : Value) (i : Index) (j : Nat) :
    (setBit v i).getLsbD j = (decide (j = i.toNat) || v.getLsbD j) := by
  have hi : i.toNat < 256 := i.isLt
  have h8 : 8 * (j / 8) + j % 8 = j := by omega
  rw [setBit, getLsbD_ofBytes]
  by_cases hj : j < 256
  · by_cases hk : j / 8 = i.toNat / 8
    · simp only [hk, if_true, BitVec.getLsbD_or, getLsbD_byteAt,
        getLsbD_one_shiftLeft _ _ (show j % 8 < 8 by omega)]
      rw [← hk, h8]
      by_cases hji : j = i.toNat
      · simp [hji, hi]
      · simp [hji, hj, show j % 8 < 8 by omega, show j % 8 ≠ i.toNat % 8 by omega]
    · rw [if_neg hk, getLsbD_byteAt_div]
      simp [hj, show j ≠ i.toNat by omega]
  · simp [hj, show j ≠ i.toNat by omega, BitVec.getLsbD_of_ge v j (by omega)]

/-- CLRBIT's effect: bit `i` becomes 0, the others stay. -/
theorem getLsbD_clearBit (v : Value) (i : Index) (j : Nat) :
    (clearBit v i).getLsbD j = (!decide (j = i.toNat) && v.getLsbD j) := by
  have hi : i.toNat < 256 := i.isLt
  have h8 : 8 * (j / 8) + j % 8 = j := by omega
  rw [clearBit, getLsbD_ofBytes]
  by_cases hj : j < 256
  · by_cases hk : j / 8 = i.toNat / 8
    · simp only [hk, if_true, BitVec.getLsbD_and, BitVec.getLsbD_not, getLsbD_byteAt,
        getLsbD_one_shiftLeft _ _ (show j % 8 < 8 by omega)]
      rw [← hk, h8]
      by_cases hji : j = i.toNat
      · simp [hji]
      · simp [hji, hj, show j % 8 < 8 by omega, show j % 8 ≠ i.toNat % 8 by omega]
    · rw [if_neg hk, getLsbD_byteAt_div]
      simp [hj, show j ≠ i.toNat by omega]
  · simp [hj, BitVec.getLsbD_of_ge v j (by omega)]

/-- ISZERO's test (R53). -/
theorem isZero_iff (v : Value) : isZero v = true ↔ v = zero256 := by simp [isZero]

/-! ### Path algorithms (R55, R57, R58) -/

/-- What a downward scan answers: the highest differing position below `n`, or 0 where there is none. -/
theorem forkScan_spec (a b : Value) (n : Nat) :
    (∃ h < n, forkScan a b n = h ∧ bitAt a h ≠ bitAt b h ∧ ∀ j, h < j → j < n → bitAt a j = bitAt b j) ∨
    (forkScan a b n = 0 ∧ ∀ j < n, bitAt a j = bitAt b j) := by
  induction n with
  | zero => exact .inr ⟨rfl, fun j hj => absurd hj (by omega)⟩
  | succ n ih =>
    by_cases hd : bitAt a n = bitAt b n
    · have e : forkScan a b (n + 1) = forkScan a b n := by simp [forkScan, hd]
      rw [e]
      rcases ih with ⟨h, hn, he, hne, hab⟩ | ⟨he, hab⟩
      · refine .inl ⟨h, by omega, he, hne, fun j h1 h2 => ?_⟩
        rcases Nat.lt_succ_iff_lt_or_eq.mp h2 with h3 | rfl
        · exact hab j h1 h3
        · exact hd
      · refine .inr ⟨he, fun j h2 => ?_⟩
        rcases Nat.lt_succ_iff_lt_or_eq.mp h2 with h3 | rfl
        · exact hab j h3
        · exact hd
    · exact .inl ⟨n, by omega, by simp [forkScan, hd], hd, fun j h1 h2 => absurd h2 (by omega)⟩

/-- The fork height of two values (R55): the highest position where they differ, or 0 where they are equal. -/
theorem forkHeight_spec (a b : Value) :
    (a.getLsbD (forkHeight a b).toNat ≠ b.getLsbD (forkHeight a b).toNat ∧
      ∀ j, (forkHeight a b).toNat < j → a.getLsbD j = b.getLsbD j) ∨
    (a = b ∧ forkHeight a b = 0#8) := by
  have hlt : forkScan a b 256 < 256 := by
    rcases forkScan_spec a b 256 with ⟨h, hn, he, -, -⟩ | ⟨he, -⟩ <;> omega
  have ht : (forkHeight a b).toNat = forkScan a b 256 := by
    rw [forkHeight, BitVec.toNat_ofNat, Nat.mod_eq_of_lt hlt]
  rcases forkScan_spec a b 256 with ⟨h, hn, he, hne, hab⟩ | ⟨he, hab⟩
  · refine .inl ⟨?_, fun j hj => ?_⟩
    · rw [ht, he]; simpa [bitAt_eq_getLsbD] using hne
    · rw [ht, he] at hj
      by_cases hj' : j < 256
      · simpa [bitAt_eq_getLsbD] using hab j hj hj'
      · rw [BitVec.getLsbD_of_ge a j (by omega), BitVec.getLsbD_of_ge b j (by omega)]
  · refine .inr ⟨value_eq_of_bits fun i hi => by simpa [bitAt_eq_getLsbD] using hab i hi, ?_⟩
    rw [forkHeight, he]

theorem getLsbD_ones_shiftLeft (r j : Nat) (hj : j < 8) : ((0xFF#8) <<< r).getLsbD j = decide (r ≤ j) := by
  have h255 : ∀ m < 8, (0xFF#8).getLsbD m = true := by decide
  simp only [BitVec.getLsbD_shiftLeft, hj, decide_true, Bool.true_and, h255 (j - r) (by omega), Bool.and_true]
  by_cases h : j < r
  · simp [h]
  · simp [h]; omega

/-- COPYB's effect (R57): the bits at `start` and above. -/
theorem getLsbD_copyBits (v : Value) (start : Index) (j : Nat) :
    (copyBits v start).getLsbD j = (decide (start.toNat ≤ j) && v.getLsbD j) := by
  have hs : start.toNat < 256 := start.isLt
  have h8 : 8 * (j / 8) + j % 8 = j := by omega
  have hm : j % 8 < 8 := by omega
  rw [copyBits, getLsbD_ofBytes]
  by_cases hj : j < 256
  · by_cases hlt : j / 8 < start.toNat / 8
    · simp [hlt, show ¬ start.toNat ≤ j by omega]
    · by_cases hk : j / 8 = start.toNat / 8
      · simp only [hlt, if_false, if_pos hk, BitVec.getLsbD_and, getLsbD_byteAt, getLsbD_ones_shiftLeft _ _ hm]
        rw [h8]
        by_cases hle : start.toNat ≤ j
        · simp [hle, hj, hm, show start.toNat % 8 ≤ j % 8 by omega]
        · simp [hle, show ¬ start.toNat % 8 ≤ j % 8 by omega]
      · rw [if_neg hlt, if_neg hk, getLsbD_byteAt_div]
        simp [hj, show start.toNat ≤ j by omega]
  · simp [hj, BitVec.getLsbD_of_ge v j (by omega)]

theorem getLsbD_zero256 (j : Nat) : zero256.getLsbD j = false := by simp [zero256]

/-- PARENT's effect (R58): the bits above the height. -/
theorem getLsbD_parentPath (v : Value) (height : Index) (j : Nat) :
    (parentPath v height).getLsbD j = (decide (height.toNat < j) && v.getLsbD j) := by
  by_cases h : height = 255#8
  · subst h
    by_cases hj : 255 < j
    · simp [parentPath, getLsbD_zero256, BitVec.getLsbD_of_ge v j (by omega)]
    · simp [parentPath, getLsbD_zero256, hj]
  · have hne : height.toNat ≠ 255 := fun e => h (BitVec.eq_of_toNat_eq (by simpa using e))
    have hlt : height.toNat < 256 := height.isLt
    have hs : (height + 1#8).toNat = height.toNat + 1 := by
      rw [BitVec.toNat_add]; simp; omega
    rw [parentPath, if_neg h, getLsbD_copyBits, hs]
    rfl

/-- The common ancestor's bits: those of the first path above the fork height (R60 item 4). -/
theorem getLsbD_commonAncestor (a b : Value) (j : Nat) :
    (commonAncestor a b).getLsbD j = (decide ((forkHeight a b).toNat < j) && a.getLsbD j) :=
  getLsbD_parentPath a (forkHeight a b) j

/-! ### The 160-bit window (R44, R46) -/

/-- LD160's widening at byte offset `off`. -/
theorem getLsbD_widen160 (off : Nat) (d : Value) (hoff : off ≤ 12) (j : Nat) :
    (widen160 off d).getLsbD j = (decide (8 * off ≤ j ∧ j < 8 * off + 160) && d.getLsbD (j - 8 * off)) := by
  have hm : j % 8 < 8 := by omega
  rw [widen160, getLsbD_ofBytes]
  by_cases hw : off ≤ j / 8 ∧ j / 8 < off + 20
  · have h8 : 8 * (j / 8 - off) + j % 8 = j - 8 * off := by omega
    have hb : 8 * off ≤ j ∧ j < 8 * off + 160 := by omega
    simp only [if_pos hw, getLsbD_byteAt, h8, decide_eq_true hm, decide_eq_true hb,
      decide_eq_true (show j < 256 by omega), Bool.true_and]
  · have hb : ¬(8 * off ≤ j ∧ j < 8 * off + 160) := by omega
    simp [hw, decide_eq_false hb]

/-- ST160's narrowing at byte offset `off`. -/
theorem getLsbD_narrow160 (off : Nat) (v : Value) (j : Nat) :
    (narrow160 off v).getLsbD j = (decide (j < 160) && v.getLsbD (8 * off + j)) := by
  have hm : j % 8 < 8 := by omega
  rw [narrow160, getLsbD_ofBytes]
  by_cases hw : j / 8 < 20
  · have h8 : 8 * (off + j / 8) + j % 8 = 8 * off + j := by omega
    simp only [if_pos hw, getLsbD_byteAt, h8, decide_eq_true hm, decide_eq_true (show j < 160 by omega),
      decide_eq_true (show j < 256 by omega), Bool.true_and]
  · simp [hw, show ¬ j < 160 by omega]

/-! ### The order (R61, R62) -/

/-- CMP's outputs in the numbers of the vectors. -/
theorem compareValues_eq (a b : Value) :
    compareValues a b =
      ⟨decide (a.toNat < b.toNat), decide (a.toNat = b.toNat), decide (b.toNat < a.toNat)⟩ := by
  simp only [compareValues, number_eq_toNat]

end Sys2Proof.Machine
end

