-- ==== Sys2Proof/Laws/Exec.lean ====
section
/-! SUPPORT. What a command does, said once: the shared endings of the meanings in the terms of Safety.lean, each arm of
`exec` as an equation, and the inversion of `exec` and of `step`. -/

namespace Sys2Proof.Machine

theorem SameFlags.refl (s : State) : SameFlags s s := ⟨rfl, rfl, rfl⟩

theorem SamePaths.refl (s : State) : SamePaths s s := fun _ => rfl

theorem SameArch.refl (s : State) : SameArch s s := ⟨.refl s, rfl, .refl s, rfl⟩

/-! ### The endings of the meanings -/

/-- Writing one path register and completing (R15, R31). -/
theorem writesPath_complete (s : State) (rd : PReg) (v : Value) : WritesPath rd v s (s.setP rd v).complete where
  written := by simp
  others r hr := by simp [State.setP_getP_ne s v hr]
  sr := by simp
  flags := ⟨by simp, by simp, by simp⟩
  ill := by simp
  input := ⟨by simp, by simp⟩
  answer := by simp [Answers]

/-- Writing `SR` and completing (R16, R31). -/
theorem writesScalar_complete (s : State) (v : BitVec 8) : WritesScalar v s (s.setSR v).complete where
  written := by simp
  paths r := by simp
  flags := ⟨by simp, by simp, by simp⟩
  ill := by simp
  input := ⟨by simp, by simp⟩
  answer := by simp [Answers]

/-- Writing the flags and completing (R17, R31). -/
theorem writesFlags_complete (s : State) (c : Order3) : WritesFlags c.lt c.eq c.gt s (s.setCC c).complete where
  lt := by simp
  eq := by simp
  gt := by simp
  paths r := by simp
  sr := by simp
  ill := by simp
  input := ⟨by simp, by simp⟩
  answer := by simp [Answers]

/-- Driving the data-out port alone (R31, R45). -/
theorem onlyAnswers_respond (s : State) (data : Value) : OnlyAnswers data s (s.respond data) where
  arch := ⟨fun r => by simp, by simp, ⟨by simp, by simp, by simp⟩, by simp⟩
  input := ⟨by simp, by simp⟩
  answer := by simp [Answers]

/-! ### The arms of `exec` -/

section Arms

variable (s : State) (rd rs rt : PReg) (n : Index) (f : Family)

theorem exec_zero : exec (.zero rd) s = .next (s.setP rd zero256).complete := rfl
theorem exec_ld256 : exec (.ld256 rd) s = .next (s.setP rd s.din).complete := rfl
theorem exec_ld160 : exec (.ld160 f rd) s = .next (s.setP rd (widen160 (window f) s.din)).complete := rfl
theorem exec_st256 : exec (.st256 rs) s = .next (s.respond (s.getP rs)) := rfl
theorem exec_st160 : exec (.st160 f rs) s = .next (s.respond (narrow160 (window f) (s.getP rs))) := rfl
theorem exec_getbitI : exec (.getbitI rs n) s = .next (s.setSR (boolByte (bitAt (s.getP rs) n.toNat))).complete := rfl
theorem exec_getbitX : exec (.getbitX rs) s = .next (s.setSR (boolByte (bitAt (s.getP rs) s.sr.toNat))).complete := rfl
theorem exec_setbitI : exec (.setbitI rd n) s = .next (s.setP rd (setBit (s.getP rd) n)).complete := rfl
theorem exec_setbitX : exec (.setbitX rd) s = .next (s.setP rd (setBit (s.getP rd) s.sr)).complete := rfl
theorem exec_clrbitI : exec (.clrbitI rd n) s = .next (s.setP rd (clearBit (s.getP rd) n)).complete := rfl
theorem exec_clrbitX : exec (.clrbitX rd) s = .next (s.setP rd (clearBit (s.getP rd) s.sr)).complete := rfl
theorem exec_isrightI : exec (.isrightI rs n) s = .next (s.setSR (boolByte (bitAt (s.getP rs) n.toNat))).complete := rfl
theorem exec_isrightX : exec (.isrightX rs) s = .next (s.setSR (boolByte (bitAt (s.getP rs) s.sr.toNat))).complete := rfl
theorem exec_iszero : exec (.iszero rs) s = .next (s.setSR (boolByte (isZero (s.getP rs)))).complete := rfl
theorem exec_forkh : exec (.forkh rs rt) s = .next (s.setSR (forkHeight (s.getP rs) (s.getP rt))).complete := rfl
theorem exec_parentI : exec (.parentI rd rs n) s = .next (s.setP rd (parentPath (s.getP rs) n)).complete := rfl
theorem exec_parentX : exec (.parentX rd rs) s = .next (s.setP rd (parentPath (s.getP rs) s.sr)).complete := rfl
theorem exec_copybI : exec (.copybI rd rs n) s = .next (s.setP rd (copyBits (s.getP rs) n)).complete := rfl
theorem exec_copybX : exec (.copybX rd rs) s = .next (s.setP rd (copyBits (s.getP rs) s.sr)).complete := rfl
theorem exec_cmp : exec (.cmp rs rt) s = .next (s.setCC (compareValues (s.getP rs) (s.getP rt))).complete := rfl

end Arms

/-- `exec` inverted: a command writes one path register, or `SR`, or the flags, or drives data, as the instruction says. -/
theorem exec_inv {i : Instr} {s t : State} (h : exec i s = .next t) :
    (∃ rd v, destination i = some rd ∧ writesScalar i = false ∧ writesFlags i = false ∧ drivesData i = false ∧
      t = (s.setP rd v).complete) ∨
    (∃ v, destination i = none ∧ writesScalar i = true ∧ writesFlags i = false ∧ drivesData i = false ∧
      t = (s.setSR v).complete) ∨
    (∃ rs rt, i = .cmp rs rt ∧ t = (s.setCC (compareValues (s.getP rs) (s.getP rt))).complete) ∨
    (∃ data, destination i = none ∧ writesScalar i = false ∧ writesFlags i = false ∧ drivesData i = true ∧
      t = s.respond data) := by
  cases i with
  | zero | ld256 | ld160 | setbitI | setbitX | clrbitI | clrbitX | parentI | parentX | copybI | copybX =>
    cases h; exact .inl ⟨_, _, rfl, rfl, rfl, rfl, rfl⟩
  | getbitI | getbitX | isrightI | isrightX | iszero | forkh =>
    cases h; exact .inr (.inl ⟨_, rfl, rfl, rfl, rfl, rfl⟩)
  | cmp rs rt => cases h; exact .inr (.inr (.inl ⟨rs, rt, rfl, rfl⟩))
  | st256 | st160 => cases h; exact .inr (.inr (.inr ⟨_, rfl, rfl, rfl, rfl, rfl⟩))

/-- The 160-bit window reads the low 160 bits of the data-in value alone (R24, R44). -/
theorem widen160_congr {off : Nat} (hoff : off ≤ 12) {d e : Value}
    (h : d.extractLsb' 0 160 = e.extractLsb' 0 160) : widen160 off d = widen160 off e := by
  apply value_eq_of_bits
  intro j _
  rw [getLsbD_widen160 off d hoff, getLsbD_widen160 off e hoff]
  by_cases hw : 8 * off ≤ j ∧ j < 8 * off + 160
  · have hb := congrArg (fun v => BitVec.getLsbD v (j - 8 * off)) h
    simp only [BitVec.getLsbD_extractLsb', Nat.zero_add, decide_eq_true (show j - 8 * off < 160 by omega),
      Bool.true_and] at hb
    rw [hb]
  · rw [decide_eq_false hw, Bool.false_and, Bool.false_and]

theorem window_le (f : Family) : window f ≤ 12 := by cases f <;> exact Nat.le_refl 12

/-- What a command reads: on two states with the same path registers and `SR`, and data-in values it cannot tell apart,
`exec` makes the same one write with the same value, or drives the same data. -/
theorem exec_congr {i : Instr} {s s' t : State} (hp : ∀ r, s'.getP r = s.getP r) (hsr : s'.sr = s.sr)
    (hd : dinAgrees i s.din s'.din) (h : exec i s = .next t) :
    (∃ rd v, destination i = some rd ∧ writesFlags i = false ∧ t = (s.setP rd v).complete ∧
      exec i s' = .next (s'.setP rd v).complete) ∨
    (∃ v, writesScalar i = true ∧ writesFlags i = false ∧ t = (s.setSR v).complete ∧
      exec i s' = .next (s'.setSR v).complete) ∨
    (∃ c, writesFlags i = true ∧ t = (s.setCC c).complete ∧ exec i s' = .next (s'.setCC c).complete) ∨
    (∃ data, writesFlags i = false ∧ t = s.respond data ∧ exec i s' = .next (s'.respond data)) := by
  cases i with
  | ld256 rd =>
    cases h
    exact .inl ⟨_, _, rfl, rfl, rfl, by rw [exec_ld256, ← show s.din = s'.din from hd]⟩
  | ld160 f rd =>
    cases h
    exact .inl ⟨_, _, rfl, rfl, rfl, by rw [exec_ld160, ← widen160_congr (window_le f) hd]⟩
  | zero rd => cases h; exact .inl ⟨_, _, rfl, rfl, rfl, rfl⟩
  | setbitI | setbitX | clrbitI | clrbitX | parentI | parentX | copybI | copybX =>
    cases h
    refine .inl ⟨_, _, rfl, rfl, rfl, ?_⟩
    simp only [exec_setbitI, exec_setbitX, exec_clrbitI, exec_clrbitX, exec_parentI, exec_parentX, exec_copybI,
      exec_copybX, IndexSource.value, hp, hsr]
  | getbitI | getbitX | isrightI | isrightX | iszero | forkh =>
    cases h
    refine .inr (.inl ⟨_, rfl, rfl, rfl, ?_⟩)
    simp only [exec_getbitI, exec_getbitX, exec_isrightI, exec_isrightX, exec_iszero, exec_forkh, IndexSource.value,
      hp, hsr]
  | cmp => cases h; exact .inr (.inr (.inl ⟨_, rfl, rfl, by simp only [exec_cmp, hp]⟩))
  | st256 => cases h; exact .inr (.inr (.inr ⟨_, rfl, rfl, by simp only [exec_st256, hp]⟩))
  | st160 => cases h; exact .inr (.inr (.inr ⟨_, rfl, rfl, by simp only [exec_st160, hp]⟩))

/-- `step` inverted: idle, a reset, a legal command or an illegal one (R28, R39, R68). -/
theorem step_inv {s t : State} (h : step s = .next t) :
    (s.host = [] ∧ t = s.idle) ∨
    (∃ rest, s.host = .reset :: rest ∧ t = State.resetUnit rest) ∨
    (∃ cw din rest i, s.host = .command cw din :: rest ∧ decode cw = .ok i ∧ exec i (s.accept din rest) = .next t) ∨
    (∃ cw din rest e, s.host = .command cw din :: rest ∧ decode cw = .error e ∧
      t = (s.accept din rest).raiseIllegalCommand) := by
  unfold step at h
  split at h
  next hh => cases h; exact .inl ⟨hh, rfl⟩
  next rest hh => cases h; exact .inr (.inl ⟨rest, hh, rfl⟩)
  next cw din rest hh =>
    unfold runCommand at h
    split at h
    next i hd => exact .inr (.inr (.inl ⟨cw, din, rest, i, hh, hd, h⟩))
    next e hd => cases h; exact .inr (.inr (.inr ⟨cw, din, rest, e, hh, hd, rfl⟩))

end Sys2Proof.Machine
end

