-- ==== Sys2Proof/Laws/PerInstr.lean ====
section
/-! SUPPORT. What holds of every instruction as syntax, one lemma per constructor: the fields of its command word are
the fields rule R40 sets for it, and they are well formed (R33). -/

namespace Sys2Proof.Laws.CommandFields

/-- The word's fields are the instruction's, and legal. -/
def Statement (i : Instr) : Prop := Fields.ofWord (encode i) = i.fields ∧ i.fields.wellFormed = true

/-- A form that admits the fields makes them legal. -/
theorem of_admits {i : Instr} (r : Form) (h : r.admits i.fields = true) : Statement i :=
  ⟨Fields.ofWord_toWord _, List.any_eq_true.mpr ⟨r, Form.mem_all r, h⟩⟩

theorem zero (rd : PReg) : Statement (.zero rd) := of_admits .zero rfl
theorem ld256 (rd : PReg) : Statement (.ld256 rd) := of_admits .ld256 rfl
theorem ld160 (f : Family) (rd : PReg) : Statement (.ld160 f rd) := of_admits .ld160 rfl
theorem st256 (rs1 : PReg) : Statement (.st256 rs1) := of_admits .st256 rfl
theorem st160 (f : Family) (rs1 : PReg) : Statement (.st160 f rs1) := of_admits .st160 rfl
theorem getbitI (rs1 : PReg) (idx : Index) : Statement (.getbitI rs1 idx) := of_admits .getbitI rfl
theorem getbitX (rs1 : PReg) : Statement (.getbitX rs1) := of_admits .getbitX rfl
theorem setbitI (rd : PReg) (idx : Index) : Statement (.setbitI rd idx) := of_admits .setbitI rfl
theorem setbitX (rd : PReg) : Statement (.setbitX rd) := of_admits .setbitX rfl
theorem clrbitI (rd : PReg) (idx : Index) : Statement (.clrbitI rd idx) := of_admits .clrbitI rfl
theorem clrbitX (rd : PReg) : Statement (.clrbitX rd) := of_admits .clrbitX rfl
theorem isrightI (rs1 : PReg) (idx : Index) : Statement (.isrightI rs1 idx) := of_admits .isrightI rfl
theorem isrightX (rs1 : PReg) : Statement (.isrightX rs1) := of_admits .isrightX rfl
theorem iszero (rs1 : PReg) : Statement (.iszero rs1) := of_admits .iszero rfl
theorem forkh (rs1 rs2 : PReg) : Statement (.forkh rs1 rs2) := of_admits .forkh rfl
theorem parentI (rd rs1 : PReg) (idx : Index) : Statement (.parentI rd rs1 idx) := of_admits .parentI rfl
theorem parentX (rd rs1 : PReg) : Statement (.parentX rd rs1) := of_admits .parentX rfl
theorem copybI (rd rs1 : PReg) (idx : Index) : Statement (.copybI rd rs1 idx) := of_admits .copybI rfl
theorem copybX (rd rs1 : PReg) : Statement (.copybX rd rs1) := of_admits .copybX rfl
theorem cmp (rs1 rs2 : PReg) : Statement (.cmp rs1 rs2) := of_admits .cmp rfl

end Sys2Proof.Laws.CommandFields
end

