-- ==== Sys2Proof/Tests/Slice0.lean ====
section
/-! SUPPORT. Small tests, their expected results from spec/95_test_vectors.md (its part is named at each group), and the
witnesses that the statements' hypotheses can be met. -/

namespace Sys2Proof.Tests

open Sys2Proof.Machine

/-! ### Helpers -/

/-- The next state of an outcome; the reset state where there is none. -/
def after (o : Host.Outcome State Fault Refusal) : State :=
  match o with
  | .next t    => t
  | .fault _   => State.reset
  | .refused _ => State.reset

/-- A state with given registers and `SR`, the rest as after reset. -/
def st (p0 p1 : Value) (sr : BitVec 8) : State := { State.reset with p0 := p0, p1 := p1, sr := sr }

/-- The response data of a state. -/
def dataOf (s : State) : Value := match s.rsp with | some r => r.data | none => 0#256

/-- The reset state with one command presented. -/
def presented (cw : CmdWord) (din : Value) : State := { State.reset with host := [.command cw din] }

def vA : Value := 0x1f1e1d1c1b1a191817161514131211100f0e0d0c0b0a09080706050403020100#256
def vB : Value := 0x1f1e1d1c1b1a191817161514131201100f0e0d0c0b0a09080706050403020100#256
def vH : Value := 0xb3b2b1b0afaeadacabaaa9a8a7a6a5a4a3a2a1a0#256
def vTop : Value := 0x8000000000000000000000000000000000000000000000000000000000000000#256
def vT248 : Value := 0x0100000000000000000000000000000000000000000000000000000000000000#256
def vAll : Value := BitVec.allOnes 256

/-! ### Well-formed fields (30_encoding.md R33): one ill-formed term for each check -/

theorem test_wf_accepts : (Fields.mk 0x31#8 3#2 1#2 0#2 0#1 0#1 2#8 0#8).wellFormed = true := by decide
theorem test_wf_unknown_op : (Fields.mk 0x15#8 0#2 0#2 0#2 0#1 0#1 0#8 0#8).wellFormed = false := by decide
theorem test_wf_unused_rd : (Fields.mk 0x13#8 1#2 0#2 0#2 0#1 0#1 0#8 0#8).wellFormed = false := by decide
theorem test_wf_unused_rs1 : (Fields.mk 0x10#8 0#2 1#2 0#2 0#1 0#1 0#8 0#8).wellFormed = false := by decide
theorem test_wf_unused_rs2 : (Fields.mk 0x20#8 0#2 0#2 1#2 0#1 0#1 0#8 0#8).wellFormed = false := by decide
theorem test_wf_unused_x : (Fields.mk 0x24#8 0#2 0#2 0#2 1#1 0#1 0#8 0#8).wellFormed = false := by decide
theorem test_wf_unused_f : (Fields.mk 0x11#8 0#2 0#2 0#2 0#1 1#1 0#8 0#8).wellFormed = false := by decide
theorem test_wf_unused_idx : (Fields.mk 0x10#8 0#2 0#2 0#2 0#1 0#1 1#8 0#8).wellFormed = false := by decide
theorem test_wf_sr_form_idx : (Fields.mk 0x20#8 0#2 0#2 0#2 1#1 0#1 5#8 0#8).wellFormed = false := by decide
theorem test_wf_z : (Fields.mk 0x10#8 0#2 0#2 0#2 0#1 0#1 0#8 1#8).wellFormed = false := by decide

/-! ### Decoding (part 2.1), every constructor by a word written out from R32 and R37 -/

theorem test_decode_construct :
    decode 0x00000210#32 = .ok (.zero .p2) ∧ decode 0x00000111#32 = .ok (.ld256 .p1) ∧
    decode 0x00008312#32 = .ok (.ld160 .b .p3) ∧ decode 0x00000413#32 = .ok (.st256 .p1) ∧
    decode 0x00008814#32 = .ok (.st160 .b .p2) := by decide
theorem test_decode_bit_access :
    decode 0x00080420#32 = .ok (.getbitI .p1 8#8) ∧ decode 0x00004420#32 = .ok (.getbitX .p1) ∧
    decode 0x00FF0021#32 = .ok (.setbitI .p0 255#8) ∧ decode 0x00004321#32 = .ok (.setbitX .p3) ∧
    decode 0x00030222#32 = .ok (.clrbitI .p2 3#8) ∧ decode 0x00004122#32 = .ok (.clrbitX .p1) ∧
    decode 0x008C0823#32 = .ok (.isrightI .p2 140#8) ∧ decode 0x00004023#32 = .ok (.isrightX .p0) ∧
    decode 0x00000C24#32 = .ok (.iszero .p3) := by decide
theorem test_decode_path :
    decode 0x00002C30#32 = .ok (.forkh .p3 .p2) ∧ decode 0x00020731#32 = .ok (.parentI .p3 .p1 2#8) ∧
    decode 0x00004231#32 = .ok (.parentX .p2 .p0) ∧ decode 0x00090232#32 = .ok (.copybI .p2 .p0 9#8) ∧
    decode 0x00004F32#32 = .ok (.copybX .p3 .p3) := by decide
theorem test_decode_order : decode 0x00003840#32 = .ok (.cmp .p2 .p3) := by decide
theorem test_decode_bits_written_out :
    decode 0b00000000000000001000001100010010#32 = .ok (.ld160 .b .p3) ∧
    decode 0b00000000110010100000010000100000#32 = .ok (.getbitI .p1 202#8) ∧
    decode 0b00000000000000000101001100110001#32 = .error .nonzeroUnused := by decide
theorem test_decode_illegal :
    decode 0x00000000#32 = .error .unknownOp ∧ decode 0xFFFFFFFF#32 = .error .unknownOp ∧
    decode 0x01000010#32 = .error .nonzeroZ ∧ decode 0x00054020#32 = .error .srFormWithIdx ∧
    decode 0x00004024#32 = .error .nonzeroUnused ∧ decode 0x00008032#32 = .error .nonzeroUnused := by decide
theorem test_encode :
    encode (.st160 .b .p2) = 0x00008814#32 ∧ encode (.parentX .p2 .p0) = 0x00004231#32 ∧
    encode (.getbitI .p3 255#8) = 0x00FF0C20#32 ∧ encode (.cmp .p2 .p3) = 0x00003840#32 := by decide
theorem test_decode_table_word :
    decodeTableWord 32 0x00004F32 = some (.copybX .p3 .p3) ∧ decodeTableWord 32 0x00001031 = none := by decide

/-! ### Construction and conversion (part 2.2) -/

theorem test_zero : (after (exec (.zero .p0) (st vAll vAll 0#8))).p0 = 0#256 := by decide
theorem test_ld256 : (after (exec (.ld256 .p1) { State.reset with din := vA })).p1 = vA := by decide
theorem test_ld160 :
    (after (exec (.ld160 .b .p3) { State.reset with din := vH })).p3 =
      0xb3b2b1b0afaeadacabaaa9a8a7a6a5a4a3a2a1a0000000000000000000000000#256 := by decide
theorem test_ld160_ignores_upper_din :
    (after (exec (.ld160 .a .p0)
      { State.reset with din := 0xffffffffffffffffffffffffb3b2b1b0afaeadacabaaa9a8a7a6a5a4a3a2a1a0#256 })).p0 =
      0xb3b2b1b0afaeadacabaaa9a8a7a6a5a4a3a2a1a0000000000000000000000000#256 := by decide
theorem test_st256 : dataOf (after (exec (.st256 .p1) (st 0#256 vA 0#8))) = vA := by decide
theorem test_st160 :
    dataOf (after (exec (.st160 .a .p1) (st 0#256 vA 0#8))) =
      0x0000000000000000000000001f1e1d1c1b1a191817161514131211100f0e0d0c#256 := by decide
theorem test_st160_drops_low_bits :
    dataOf (after (exec (.st160 .a .p0) (st 0xffffffffffffffffffffffff#256 0#256 0#8))) = 0#256 := by decide

/-! ### Bit accessors (part 2.3) -/

theorem test_getbit :
    (after (exec (.getbitI .p1 8#8) (st 0#256 vA 0#8))).sr = 1#8 ∧
    (after (exec (.getbitI .p1 7#8) (st 0#256 vA 0#8))).sr = 0#8 := by decide
theorem test_getbit_sr_form : (after (exec (.getbitX .p0) (st vTop 0#256 0xff#8))).sr = 1#8 := by decide
theorem test_setbit :
    (after (exec (.setbitI .p0 248#8) (st 0#256 0#256 0#8))).p0 = vT248 := by decide
theorem test_setbit_sr_form :
    (after (exec (.setbitX .p3) (st 0#256 0#256 0x8c#8))).p3 =
      0x0000000000000000000000000000100000000000000000000000000000000000#256 := by decide
theorem test_clrbit :
    (after (exec (.clrbitI .p0 8#8) (st vAll 0#256 0#8))).p0 =
      0xfffffffffffffffffffffffffffffffffffffffffffffffffffffffffffffeff#256 := by decide
theorem test_clrbit_sr_form : (after (exec (.clrbitX .p0) (st 0x0f#256 0#256 3#8))).p0 = 0x07#256 := by decide
theorem test_isright :
    (after (exec (.isrightI .p0 140#8) (st vA 0#256 0#8))).sr = 1#8 ∧
    (after (exec (.isrightI .p0 140#8) (st vB 0#256 1#8))).sr = 0#8 := by decide
theorem test_isright_sr_form : (after (exec (.isrightX .p0) (st vTop 0#256 0xff#8))).sr = 1#8 := by decide
theorem test_iszero :
    (after (exec (.iszero .p0) (st 0#256 0#256 0#8))).sr = 1#8 ∧
    (after (exec (.iszero .p0) (st vTop 0#256 1#8))).sr = 0#8 := by decide

/-! ### Path algorithms (part 2.4) -/

theorem test_forkh :
    (after (exec (.forkh .p0 .p1) (st vA vB 0#8))).sr = 0x8c#8 := by decide +kernel
theorem test_forkh_equal_and_bit0 :
    (after (exec (.forkh .p0 .p1) (st vA vA 7#8))).sr = 0#8 ∧
    (after (exec (.forkh .p0 .p1) (st 1#256 0#256 7#8))).sr = 0#8 := by decide +kernel
theorem test_common_ancestor :
    commonAncestor vA vB = 0x1f1e1d1c1b1a1918171615141312000000000000000000000000000000000000#256 := by
  decide +kernel
theorem test_parent :
    (after (exec (.parentI .p3 .p1 2#8) (st 0#256 0x27#256 0#8))).p3 = 0x20#256 ∧
    (after (exec (.parentI .p2 .p0 255#8) (st vAll 0#256 0#8))).p2 = 0#256 := by decide
theorem test_parent_sr_form :
    (after (exec (.parentX .p2 .p0) (st vA 0#256 0x8c#8))).p2 =
      0x1f1e1d1c1b1a1918171615141312000000000000000000000000000000000000#256 := by decide
theorem test_copyb :
    (after (exec (.copybI .p2 .p0 8#8) (st 0x180#256 0#256 0#8))).p2 = 0x100#256 ∧
    (after (exec (.copybI .p2 .p0 9#8) (st 0x180#256 0#256 0#8))).p2 = 0#256 := by decide
theorem test_copyb_sr_form :
    (after (exec (.copybX .p0 .p0) (st vAll 0#256 0x60#8))).p0 =
      0xffffffffffffffffffffffffffffffffffffffff000000000000000000000000#256 := by decide

/-! ### Ordering (part 2.5) -/

theorem test_cmp_unsigned :
    (after (exec (.cmp .p0 .p1) (st vTop (vAll >>> 1) 0#8))).status = 0x400#12 := by decide +kernel
theorem test_cmp_higher_byte_outweighs :
    (after (exec (.cmp .p0 .p1) (st 0xff#256 0x100#256 0#8))).status = 0x100#12 := by decide +kernel

/-! ### Exception, reset, step (part 2.6) -/

theorem test_illegal_command :
    (after (step { (presented 0x00000000#32 vAll) with p0 := vA, sr := 0x8c#8, gt := true })).rsp =
      some ⟨true, 0xc8c#12, 0#256⟩ := by decide
theorem test_ill_is_sticky :
    (after (step { (presented 0x00000024#32 0#256) with p0 := vA, sr := 0x8c#8, gt := true, ill := true })).rsp =
      some ⟨false, 0xc00#12, 0#256⟩ := by decide
theorem test_reset_event : after (step { (st vA vB 9#8) with ill := true, host := [.reset] }) = State.reset := by
  decide
theorem test_unwritten_register_reads_zero :
    (after (step (presented 0x00000C13#32 vAll))).rsp = some ⟨false, 0#12, 0#256⟩ := by decide
theorem test_fetch_word :
    (after (step (State.reset.withFetchWord 32 0x00000224))).ill = true ∧
    (after (step (State.reset.withFetchWord 32 0x00000824))).sr = 1#8 := by decide

/-! ### The clocked unit (20_memory.md R31): acceptance, response one edge later -/

theorem test_handshake :
    (Clocked.mk State.reset .ready).outputs false = ⟨true, none⟩ ∧
    (Clocked.mk State.reset .ready).outputs true = ⟨false, none⟩ ∧
    ((Clocked.mk State.reset .ready).afterAccept 0x00000024#32 0#256).outputs false = ⟨false, none⟩ := by decide

/-! ### Assembler (part 3, R40) -/

theorem test_assemble_parent :
    assembleText ['P','A','R','E','N','T',' ','P','3',',',' ','P','1',',',' ','#','2',' ',';',' ','x'] =
      some (.command 0x00020731#32 0#256) := by decide
theorem test_assemble_hex_and_sr :
    assembleText ['S','E','T','B','I','T',' ','P','0',',',' ','#','0','x','f','F'] =
      some (.command 0x00FF0021#32 0#256) ∧
    assembleText ['C','O','P','Y','B',' ','P','3',',','P','3',',','S','R'] = some (.command 0x00004F32#32 0#256) ∧
    assembleText ['G','E','T','B','I','T',' ','P','0',',','#','2','5','6'] = none := by decide
theorem test_assemble_literal :
    assembleText (['L','D','1','6','0','.','B',' ','P','3',',',' ','=','0','x'] ++ List.replicate 38 '0' ++ ['a','0']) =
      some (.command 0x00008312#32 0xa0#256) := by decide
theorem test_assemble_lines :
    assembleLines [[';',' ','x'], ['M','O','V',' ','P','1',',',' ','P','0'], []] =
      some [.command 0x00000132#32 0#256] := by decide

/-! ### Witnesses: states and operands that meet a statement's hypotheses, clause by clause -/

theorem test_witness_ResetClearsEverything : (State.resetUnit [.reset]).host = .reset :: [] := rfl

theorem test_witness_StepKeepsInvariant :
    State.reset.Inv ∧ step State.reset = .next State.reset :=
  ⟨⟨by unfold State.FlagsLegal; decide, fun r h => by cases h⟩, rfl⟩

theorem test_witness_EncodeInvertsDecode : decode 0x00000210#32 = .ok (.zero .p2) := by decide

theorem test_witness_OpcodeRowsDisjoint :
    0x00000210#32 &&& Form.zero.row.mask = Form.zero.row.pattern := by decide

theorem test_witness_IllegalWordsAreTheRest :
    IllegalCommand 0x01000010#32 ∧ ¬IllegalCommand 0x00000010#32 ∧
    (Fields.mk 0x10#8 0#2 0#2 0#2 0#1 0#1 0#8 1#8).z ≠ 0#8 ∧
    (Fields.mk 0x20#8 0#2 0#2 0#2 1#1 0#1 5#8 0#8).x = 1#1 ∧ (Fields.mk 0x20#8 0#2 0#2 0#2 1#1 0#1 5#8 0#8).idx ≠ 0#8 :=
  ⟨fun r => by cases r <;> decide, fun h => h .zero (by decide), by decide, by decide, by decide⟩

theorem test_witness_StepRunsDecodedInstruction :
    (presented 0x00000210#32 0#256).host = .command 0x00000210#32 0#256 :: [] ∧
    decode 0x00000210#32 = .ok (.zero .p2) := by decide

theorem test_witness_IllegalCommandEffect :
    (presented 0x01000010#32 0#256).host = .command 0x01000010#32 0#256 :: [] ∧ IllegalCommand 0x01000010#32 :=
  ⟨rfl, fun r => by cases r <;> decide⟩

theorem test_witness_EveryCommandCompletes : drivesData (.zero .p0) = false ∧ drivesData (.st256 .p0) = true := by decide

theorem test_witness_ErrExactlyForIllegalWords :
    (presented 0x00000010#32 0#256).host = .command 0x00000010#32 0#256 :: [] := rfl

theorem test_witness_EventsRunInOrder : (presented 0x00000010#32 0#256).host = .command 0x00000010#32 0#256 :: [] := rfl

theorem test_witness_IdleHoldsState : State.reset.host = [] := rfl

theorem test_witness_UnusedDataInIgnored :
    dinAgrees (.ld160 .a .p0) vH (vH ||| 1#256 <<< 160) ∧ dinAgrees (.ld256 .p0) vA vA ∧ dinAgrees (.zero .p0) vA vB ∧
    exec (.zero .p0) { State.reset with din := vA } =
      .next (State.setP { State.reset with din := vA } .p0 zero256).complete :=
  ⟨by unfold dinAgrees; decide, rfl, trivial, rfl⟩

/-! The words of the `EncodedAs` clauses are those of 95_test_vectors.md part 2.1. -/

theorem test_witness_ZeroWritesZeroConstant :
    (0x00000210#32 &&& 0xFFFFFCFF#32 = 0x00000010#32) ∧ (0 < 32) ∧ 31 < 32 := by decide

theorem test_witness_Ld256CopiesDataIn :
    (0x00000111#32 &&& 0xFFFFFCFF#32 = 0x00000011#32) ∧ 31 < 32 ∧ 7 < 8 := by decide

theorem test_witness_Ld160WidensDataIn :
    (0x00008312#32 &&& 0xFFFF7CFF#32 = 0x00000012#32) ∧ 255 < 256 := by decide

theorem test_witness_St256DrivesValue :
    (0x00000413#32 &&& 0xFFFFF3FF#32 = 0x00000013#32) := by decide

theorem test_witness_St160NarrowsValue :
    (0x00008814#32 &&& 0xFFFF73FF#32 = 0x00000014#32) ∧ 255 < 256 := by decide

theorem test_witness_GetbitReadsBit :
    (0x00080420#32 &&& 0xFF00F3FF#32 = 0x00000020#32) ∧ (0x00004420#32 &&& 0xFFFFF3FF#32 = 0x00004020#32) := by decide

theorem test_witness_SetbitSetsBit :
    (0x00FF0021#32 &&& 0xFF00FCFF#32 = 0x00000021#32) ∧ (0x00004321#32 &&& 0xFFFFFCFF#32 = 0x00004021#32) := by decide

theorem test_witness_ClrbitClearsBit :
    (0x00030222#32 &&& 0xFF00FCFF#32 = 0x00000022#32) ∧ (0x00004122#32 &&& 0xFFFFFCFF#32 = 0x00004022#32) := by decide

theorem test_witness_IsrightReadsBit :
    (0x008C0823#32 &&& 0xFF00F3FF#32 = 0x00000023#32) ∧ (0x00004023#32 &&& 0xFFFFF3FF#32 = 0x00004023#32) := by decide

theorem test_witness_IszeroTestsZero :
    (0x00000C24#32 &&& 0xFFFFF3FF#32 = 0x00000024#32) ∧ 31 < 32 := by decide

theorem test_witness_CopybKeepsBitsFromStart :
    (0x00090232#32 &&& 0xFF00F0FF#32 = 0x00000032#32) ∧ (0x00004F32#32 &&& 0xFFFFF0FF#32 = 0x00004032#32) ∧ 255 < 256 := by decide

theorem test_witness_CmpWritesOrder :
    (0x00001040#32 &&& 0xFFFFC3FF#32 = 0x00000040#32) := by decide

theorem test_witness_WindowRoundTrips :
    0 ≤ Config.w160OffsetMax ∧ 12 ≤ Config.w160OffsetMax ∧ widen160 0 vH = widen160 0 (vH ||| 1#256 <<< 160) ∧
    widen160 12 vH = widen160 12 (vH ||| 1#256 <<< 160) := by decide

theorem test_witness_BitRoundTrip : (0#8 : Index) ≠ 255#8 := by decide

theorem test_witness_ForkhFindsForkHeight :
    (0x00001030#32 &&& 0xFFFFC3FF#32 = 0x00000030#32) ∧
    (st vA vA 0#8).getP .p0 = (st vA vA 0#8).getP .p1 ∧
    (st 1#256 0#256 0#8).getP .p0 ^^^ (st 1#256 0#256 0#8).getP .p1 = 1#256 ∧
    (st vTop 0#256 0#8).getP .p0 ≠ (st vTop 0#256 0#8).getP .p1 := by decide

theorem test_witness_ParentKeepsBitsAboveHeight :
    (0x00020731#32 &&& 0xFF00F0FF#32 = 0x00000031#32) ∧ (0x00004231#32 &&& 0xFFFFF0FF#32 = 0x00004031#32) ∧
    (255#8 : Index) = 255#8 ∧ (255#8 : Index).toNat = (254#8 : Index).toNat + 1 ∧
    (1#8 : Index).toNat = (0#8 : Index).toNat + 1 ∧ (st 0#256 0#256 255#8).sr = 255#8 ∧
    (255#8 : Index).toNat = (st 0#256 0#256 254#8).sr.toNat + 1 := by decide

theorem test_witness_PrefixesCompose : (9#8 : Index).toNat = max (9#8 : Index).toNat (8#8 : Index).toNat := by decide

theorem test_witness_ForkHeightSymmetricAndZero : vA ^^^ vB ≠ 0#256 ∧ vA ^^^ vA = 0#256 := by decide

theorem test_witness_CommonAncestorAtForkHeight : vA ≠ vB ∧ vA = vA := by decide

theorem test_witness_ForkBitDecidesOrder : vTop ≠ zero256 := by decide

theorem test_witness_ForkThenParentsAgree : PReg.p2 ≠ PReg.p1 ∧ PReg.p2 ≠ PReg.p3 := by decide

theorem test_witness_ValueViewsAgree : 31 < 32 ∧ 255 < 256 ∧ 2 ^ 256 - 1 < 2 ^ 256 := by decide

theorem test_witness_EqualityThreeForms : (st vA vB 0#8).getP .p0 = vA ∧ (st vA vB 0#8).getP .p1 = vB := by decide

theorem test_witness_OrderThreeForms : bitAt vTop 255 = true ∧ bitAt vT248 255 = false := by decide

theorem test_witness_OrderIsStrictTotal :
    LtByBits 1#256 vT248 ∧ LtByBits vT248 vTop ∧
    (after (exec (.cmp .p0 .p1) { (st 1#256 vT248 0#8) with p2 := vTop })).lt = true ∧
    (after (exec (.cmp .p1 .p2) (after (exec (.cmp .p0 .p1) { (st 1#256 vT248 0#8) with p2 := vTop })))).lt = true :=
  ⟨⟨248, by decide, by decide, by decide, fun j h1 h2 => by interval_cases j <;> decide⟩,
   ⟨255, by decide, by decide, by decide, fun j h1 h2 => by omega⟩, by decide +kernel, by decide +kernel⟩

theorem test_witness_ScannerTreeComputesForkHeight :
    (1#(2 ^ 8) : BitVec (2 ^ 8)) ≠ 0#(2 ^ 8) ∧ (0#(2 ^ 8) : BitVec (2 ^ 8)) = 0#(2 ^ 8) := by decide

theorem test_witness_MaskerComputesPrefixes : (256#9).toNat ≤ 256 ∧ (0#9).toNat ≤ 256 := by decide

theorem test_witness_ComparatorTreeComputesOrder :
    (Bracketing.balanced 5 0).leaves = downFrom 32 ∧ (Bracketing.balanced 8 0).leaves = downFrom 256 := by
  decide +kernel

theorem test_witness_PathRegistersChangeOnlyAsDestination :
    (after (step (presented 0x00FF0021#32 0#256))).getP .p0 ≠ (presented 0x00FF0021#32 0#256).getP .p0 ∧
    destination (.zero .p0) ≠ some .p1 := by decide

theorem test_witness_ScalarWrittenByFourInstructions :
    (after (step (presented 0x00000024#32 0#256))).sr ≠ (presented 0x00000024#32 0#256).sr ∧
    writesScalar (.iszero .p0) = true := by decide

theorem test_witness_FlagsWrittenByCmpAlone :
    (after (step (presented 0x00001040#32 0#256))).eq ≠ (presented 0x00001040#32 0#256).eq ∧
    writesFlags (.cmp .p0 .p1) = true ∧ ({ State.reset with gt := true } : State).gt = true ∧
    ¬PresentsReset { State.reset with gt := true } :=
  ⟨by decide +kernel, rfl, rfl, fun ⟨_, h⟩ => by cases h⟩

theorem test_witness_FlagsReadByNoCommand :
    exec (.zero .p0) State.reset = .next (State.reset.setP .p0 zero256).complete ∧
    writesFlags (.zero .p0) = false ∧ Answers 0#256 (State.reset.setP .p0 zero256).complete := ⟨rfl, rfl, rfl⟩

theorem test_witness_IllSticky :
    step (presented 0x00000010#32 0#256) =
      .next (((presented 0x00000010#32 0#256).accept 0#256 []).setP .p0 zero256).complete ∧
    PresentsReset (State.resetUnit [.reset]) := ⟨rfl, [], rfl⟩

theorem test_witness_StatusShowsStateAfter : State.reset.FlagsLegal ∧ ({ State.reset with lt := true } : State).FlagsLegal := by
  unfold State.FlagsLegal; decide

theorem test_witness_HandshakePerformsStep :
    (Clocked.mk State.reset .ready).phase = .ready ∧ (PortsIn.mk false true 0x00000024#32 0#256).rst = false ∧
    (PortsIn.mk false true 0x00000024#32 0#256).cmdValid = true := by decide

theorem test_witness_ResetEdgeClears :
    (PortsIn.mk true true 0x00000024#32 0#256).rst = true ∧ (PortsIn.mk false true 0x00000024#32 0#256).rst = false ∧
    clockEdge (PortsIn.mk false false 0#32 0#256) (Clocked.mk State.reset .ready) =
      .next (Clocked.mk State.reset .ready).afterIdle := ⟨rfl, rfl, rfl⟩

theorem test_witness_ClockEdgeKeepsInvariant :
    (Clocked.mk State.reset .ready).unit.Inv ∧
    clockEdge (PortsIn.mk true false 0#32 0#256) (Clocked.mk State.reset .ready) =
      .next (Clocked.mk State.reset .ready).afterReset :=
  ⟨⟨by unfold State.FlagsLegal; decide, fun r h => by cases h⟩, rfl⟩

end Sys2Proof.Tests
end

section
/-! PROOFS. Totality of the unit (spec/00_scope.md rule R3): every instruction and every step answers a next state, and
a legal command answers without an error. -/

namespace Sys2Proof.Machine

/-- No arm of `exec` faults or refuses (R3). -/
theorem exec_completes (i : Instr) (s : State) : ∃ t, exec i s = .next t := by
  cases i <;> exact ⟨_, rfl⟩

/-- The response of a completed instruction (R31), whichever of its four endings it has. -/
theorem exec_answers {i : Instr} {s t : State} (h : exec i s = .next t) :
    ∃ data, Answers data t ∧ (drivesData i = false → data = 0#256) := by
  obtain ⟨rd, v, -, -, -, -, rfl⟩ | ⟨v, -, -, -, -, rfl⟩ | ⟨rs, rt, -, rfl⟩ | ⟨data, -, -, -, hdrives, rfl⟩ :=
    exec_inv h
  · exact ⟨0#256, (writesPath_complete s rd v).answer, fun _ => rfl⟩
  · exact ⟨0#256, (writesScalar_complete s v).answer, fun _ => rfl⟩
  · exact ⟨0#256, (writesFlags_complete s _).answer, fun _ => rfl⟩
  · exact ⟨data, (onlyAnswers_respond s data).answer, by simp [hdrives]⟩

/-- A command word answers a next state whether it decodes or is illegal (R39, R65). -/
theorem runCommand_completes (cw : CmdWord) (s : State) : ∃ t, runCommand cw s = .next t := by
  unfold runCommand
  split
  next i _ => exact exec_completes i s
  next => exact ⟨s.raiseIllegalCommand, rfl⟩

/-- Idle, reset and command all answer a next state (R28, R68, R73). -/
theorem step_completes (s : State) : ∃ t, step s = .next t := by
  unfold step
  split
  next => exact ⟨s.idle, rfl⟩
  next rest _ => exact ⟨State.resetUnit rest, rfl⟩
  next cw din rest _ => exact runCommand_completes cw (s.accept din rest)

/-- Settles O12: every arm of `exec` answers, its response is that of its ending, and every case of `step` answers. -/
theorem everyCommandCompletes : Obligations.EveryCommandCompletes := by
  refine ⟨fun i s => ?_, step_completes⟩
  obtain ⟨t, ht⟩ := exec_completes i s
  obtain ⟨data, hanswer, hdata⟩ := exec_answers ht
  exact ⟨t, data, ht, hanswer, hdata⟩

end Sys2Proof.Machine
end

section
/-! PROOFS. What a command, a step and a clock edge change, in the terms of Safety.lean: the frame of `exec` drawn from
its inversion (R15 to R18), the inversion of `runCommand` and of `clockEdge`, and the bits of `STATUS` (R19). -/

namespace Sys2Proof.Machine

/-! ### The frame of `exec` -/

/-- What the instruction `i` leaves of `s` in `t`: each part of the state that it is no writer of (R15 to R18). -/
structure Frame (i : Instr) (s t : State) : Prop where
  paths : ∀ r, destination i ≠ some r → t.getP r = s.getP r
  sr    : writesScalar i = false → t.sr = s.sr
  flags : writesFlags i = false → SameFlags s t
  ill   : t.ill = s.ill

/-- Every instruction keeps its frame, by the one write it makes. -/
theorem exec_frame {i : Instr} {s t : State} (h : exec i s = .next t) : Frame i s t := by
  obtain ⟨rd, v, hdest, -, -, -, rfl⟩ | ⟨v, -, hscalar, -, -, rfl⟩ | ⟨rs, rt, rfl, rfl⟩ | ⟨data, -, -, -, -, rfl⟩ :=
    exec_inv h
  · have hw := writesPath_complete s rd v
    exact ⟨fun r hr => hw.others r fun e => hr (e ▸ hdest), fun _ => hw.sr, fun _ => hw.flags, hw.ill⟩
  · have hw := writesScalar_complete s v
    exact ⟨fun r _ => hw.paths r, fun hi => by simp [hi] at hscalar, fun _ => hw.flags, hw.ill⟩
  · have hw := writesFlags_complete s (compareValues (s.getP rs) (s.getP rt))
    exact ⟨fun r _ => hw.paths r, fun _ => hw.sr, fun hi => (by cases hi), hw.ill⟩
  · have hw := onlyAnswers_respond s data
    exact ⟨fun r _ => hw.arch.paths r, fun _ => hw.arch.sr, fun _ => hw.arch.flags, hw.arch.ill⟩

/-! ### The order flags (R17) -/

/-- Exactly one order flag is set: one of the triples CMP can leave (R17). -/
def State.OneFlagSet (s : State) : Prop :=
  (s.lt, s.eq, s.gt) ∈ [(true, false, false), (false, true, false), (false, false, true)]

/-- Two flags are never set where exactly one is. -/
theorem State.OneFlagSet.flagsLegal {s : State} (h : s.OneFlagSet) : s.FlagsLegal := by
  simp only [State.OneFlagSet, List.mem_cons, Prod.mk.injEq, List.not_mem_nil, or_false] at h
  obtain ⟨hl, he, hg⟩ | ⟨hl, he, hg⟩ | ⟨hl, he, hg⟩ := h <;> simp [State.FlagsLegal, hl, he, hg]

theorem State.OneFlagSet.someFlag {s : State} (h : s.OneFlagSet) : s.lt = true ∨ s.eq = true ∨ s.gt = true := by
  simp only [State.OneFlagSet, List.mem_cons, Prod.mk.injEq, List.not_mem_nil, or_false] at h
  obtain ⟨hl, -, -⟩ | ⟨-, he, -⟩ | ⟨-, -, hg⟩ := h
  · exact .inl hl
  · exact .inr (.inl he)
  · exact .inr (.inr hg)

/-- Whether two flags are set is a matter of the flags alone. -/
theorem SameFlags.flagsLegal {s t : State} (h : SameFlags s t) (hs : s.FlagsLegal) : t.FlagsLegal := by
  simpa only [State.FlagsLegal, h.lt, h.eq, h.gt] using hs

/-- CMP's outputs are one-hot: of two numbers one is smaller or they are equal (R62). -/
theorem oneFlagSet_setCC_compareValues (s : State) (a b : Value) : (s.setCC (compareValues a b)).OneFlagSet := by
  rw [compareValues_eq]
  rcases Nat.lt_trichotomy a.toNat b.toNat with h | h | h
  · simp [State.OneFlagSet, h, h.ne, h.le]
  · simp [State.OneFlagSet, h]
  · simp [State.OneFlagSet, h, h.ne', h.le]

/-- The instruction that writes the flags leaves exactly one set (R17). -/
theorem exec_oneFlagSet_of_writesFlags {i : Instr} {s t : State} (h : exec i s = .next t)
    (hi : writesFlags i = true) : t.OneFlagSet := by
  obtain ⟨rd, v, -, -, hw, -, rfl⟩ | ⟨v, -, -, hw, -, rfl⟩ | ⟨rs, rt, -, rfl⟩ | ⟨data, -, -, hw, -, rfl⟩ := exec_inv h
  · simp [hi] at hw
  · simp [hi] at hw
  · exact oneFlagSet_setCC_compareValues s _ _
  · simp [hi] at hw

/-- What any instruction does to the flags: nothing, or it sets exactly one (R17). -/
theorem exec_flags {i : Instr} {s t : State} (h : exec i s = .next t) : SameFlags s t ∨ t.OneFlagSet := by
  cases hi : writesFlags i with
  | false => exact .inl ((exec_frame h).flags hi)
  | true => exact .inr (exec_oneFlagSet_of_writesFlags h hi)

/-! ### Command words, steps and clock edges -/

/-- The words that satisfy no row are those that do not decode (R38, R39). -/
theorem illegalCommand_iff_decode_error (cw : CmdWord) : IllegalCommand cw ↔ ∃ e, decode cw = .error e := by
  have hrow : ∀ r : Form, r.row.matchesWord cw = true ↔ cw &&& r.row.mask = r.row.pattern := fun r => beq_iff_eq
  unfold decode
  split
  next r hr =>
    have hmatch := List.find?_some (p := fun q : Form => q.row.matchesWord cw) hr
    refine ⟨fun h => absurd ((hrow r).mp hmatch) (h r), ?_⟩
    rintro ⟨e, he⟩
    cases he
  next hnone =>
    refine ⟨fun _ => ⟨_, rfl⟩, fun _ r hr => ?_⟩
    exact List.find?_eq_none.mp hnone r (Form.mem_all r) ((hrow r).mpr hr)

/-- `runCommand` inverted: the word decodes and its instruction runs, or it raises the exception (R39). -/
theorem runCommand_inv {cw : CmdWord} {s t : State} (h : runCommand cw s = .next t) :
    (∃ i, decode cw = .ok i ∧ exec i s = .next t) ∨
    (∃ e, decode cw = .error e ∧ t = s.raiseIllegalCommand) := by
  unfold runCommand at h
  split at h
  next i hd => exact .inl ⟨i, hd, h⟩
  next e hd => cases h; exact .inr ⟨e, hd, rfl⟩

/-- `ILL` after a command word (R18, R65). -/
theorem runCommand_ill {cw : CmdWord} {s t : State} (h : runCommand cw s = .next t) :
    t.ill = true ↔ s.ill = true ∨ IllegalCommand cw := by
  rw [illegalCommand_iff_decode_error]
  obtain ⟨i, hd, hi⟩ | ⟨e, hd, rfl⟩ := runCommand_inv h
  · simp [(exec_frame hi).ill, hd]
  · simp [hd]

/-- Every command word is answered with the status of the state after it (R31, R65). -/
theorem runCommand_responds {cw : CmdWord} {s t : State} (h : runCommand cw s = .next t) :
    ∃ r, t.rsp = some r ∧ r.status = t.status := by
  obtain ⟨i, -, hi⟩ | ⟨e, -, rfl⟩ := runCommand_inv h
  · obtain ⟨data, hanswer, -⟩ := exec_answers hi
    exact ⟨_, hanswer, rfl⟩
  · exact ⟨_, s.raiseIllegalCommand_rsp, rfl⟩

/-- Where the host presents nothing the unit idles (R73). -/
theorem step_idle {s : State} (hh : s.host = []) : step s = .next s.idle := by
  simp only [step, hh]

/-- A reset event resets the unit (R74). -/
theorem step_reset {s : State} {rest : List HostEvent} (hh : s.host = .reset :: rest) :
    step s = .next (State.resetUnit rest) := by
  simp only [step, hh]

/-- A presented command runs on the state with its data-in value sampled and its event gone (R28, R31). -/
theorem step_command {s : State} {cw : CmdWord} {din : Value} {rest : List HostEvent}
    (hh : s.host = .command cw din :: rest) : step s = runCommand cw (s.accept din rest) := by
  simp only [step, hh]

/-- A step that takes a command answers it with the status of the state after it (R31). -/
theorem step_command_responds {s : State} {cw : CmdWord} {din : Value} {rest : List HostEvent}
    (hh : s.host = .command cw din :: rest) : ∃ t r, step s = .next t ∧ t.rsp = some r ∧ r.status = t.status := by
  obtain ⟨t, ht⟩ := runCommand_completes cw (s.accept din rest)
  obtain ⟨r, hrsp, hstatus⟩ := runCommand_responds ht
  exact ⟨t, r, (step_command hh).trans ht, hrsp, hstatus⟩

/-- `clockEdge` inverted: a reset edge, the end of the command in flight, an acceptance, or an idle edge (R31, R74). -/
theorem clockEdge_inv {p : PortsIn} {c c₁ : Clocked} (h : clockEdge p c = .next c₁) :
    (p.rst = true ∧ c₁ = c.afterReset) ∨
    (∃ cw t, p.rst = false ∧ c.phase = .performing cw ∧ runCommand cw c.unit = .next t ∧ c₁ = ⟨t, .ready⟩) ∨
    (p.rst = false ∧ c.phase = .ready ∧ p.cmdValid = true ∧ c₁ = c.afterAccept p.cmdWord p.cmdData) ∨
    (p.rst = false ∧ c.phase = .ready ∧ p.cmdValid = false ∧ c₁ = c.afterIdle) := by
  unfold clockEdge at h
  split at h
  next hrst => cases h; exact .inl ⟨hrst, rfl⟩
  next hrst =>
    have hrst := Bool.eq_false_of_not_eq_true hrst
    split at h
    next cw hphase =>
      obtain ⟨t, ht⟩ := runCommand_completes cw c.unit
      simp only [Clocked.finish, ht] at h
      cases h
      exact .inr (.inl ⟨cw, t, hrst, hphase, ht, rfl⟩)
    next hphase =>
      split at h
      next hvalid => cases h; exact .inr (.inr (.inl ⟨hrst, hphase, hvalid, rfl⟩))
      next hvalid => cases h; exact .inr (.inr (.inr ⟨hrst, hphase, Bool.eq_false_of_not_eq_true hvalid, rfl⟩))

/-! ### The bits of `STATUS` (R19) -/

section Status

variable (s : State)

/-- Bit by bit: `SR` in the low byte, then `LT`, `EQ`, `GT` and `ILL`. -/
theorem State.getLsbD_status (j : Nat) :
    s.status.getLsbD j =
      if j < 11 then if j < 10 then if j < 9 then if j < 8 then s.sr.getLsbD j else decide (j - 8 = 0) && s.lt
        else decide (j - 9 = 0) && s.eq else decide (j - 10 = 0) && s.gt else decide (j - 11 = 0) && s.ill := by
  simp only [State.status, BitVec.getLsbD_append, BitVec.getLsbD_ofBool]

theorem State.status_scalar : s.status.extractLsb' 0 8 = s.sr := by
  apply BitVec.eq_of_getLsbD_eq
  intro j hj
  simp only [BitVec.getLsbD_extractLsb', State.getLsbD_status, Nat.zero_add, hj, decide_true, Bool.true_and, if_true,
    show j < 9 by omega, show j < 10 by omega, show j < 11 by omega]

theorem State.status_lt : s.status.getLsbD 8 = s.lt := s.getLsbD_status 8
theorem State.status_eq : s.status.getLsbD 9 = s.eq := s.getLsbD_status 9
theorem State.status_gt : s.status.getLsbD 10 = s.gt := s.getLsbD_status 10
theorem State.status_ill : s.status.getLsbD 11 = s.ill := s.getLsbD_status 11

/-- The flag field of `STATUS`, `GT` on top. -/
theorem State.status_flags :
    s.status.extractLsb' 8 3 = BitVec.ofBool s.gt ++ (BitVec.ofBool s.eq ++ BitVec.ofBool s.lt) := by
  apply BitVec.eq_of_getLsbD_eq
  intro j hj
  simp only [BitVec.getLsbD_extractLsb', State.getLsbD_status, BitVec.getLsbD_append, BitVec.getLsbD_ofBool]
  interval_cases j <;> rfl

end Status

end Sys2Proof.Machine
end

section
/-! PROOFS. Reset and the invariant (spec/10_state.md R17, R19, R21; spec/20_memory.md R31): the reset values, and `Inv`
at reset, after every step and after every clock edge. A response is made with the status of the state it stands in, so
its half of `Inv` holds after any command; only the half about the flags is carried from the state before. -/

namespace Sys2Proof.Machine

/-- With no response on the ports the invariant is about the flags alone. -/
theorem State.inv_of_rsp_none {s : State} (hflags : s.FlagsLegal) (hrsp : s.rsp = none) : s.Inv :=
  ⟨hflags, fun r hr => by simp [hrsp] at hr⟩

theorem State.inv_resetUnit (rest : List HostEvent) : (State.resetUnit rest).Inv :=
  State.inv_of_rsp_none (by simp [State.FlagsLegal]) rfl

/-- The answer of a legal command shows the status after it and no error (R31). -/
theorem Answers.responseLegal {data : Value} {t : State} (h : Answers data t) : t.ResponseLegal := by
  intro r hr
  obtain rfl : _ = r := Option.some.inj (h.symm.trans hr)
  simp

/-- The answer of IllegalCommand shows the status after it, with `ILL` set and no data (R65). -/
theorem State.responseLegal_raiseIllegalCommand (s : State) : s.raiseIllegalCommand.ResponseLegal := by
  intro r hr
  obtain rfl : _ = r := Option.some.inj (s.raiseIllegalCommand_rsp.symm.trans hr)
  simp

/-- IllegalCommand leaves the flags (R65). -/
theorem State.inv_raiseIllegalCommand {s : State} (hs : s.FlagsLegal) : s.raiseIllegalCommand.Inv :=
  ⟨SameFlags.flagsLegal (s := s) ⟨rfl, rfl, rfl⟩ hs, s.responseLegal_raiseIllegalCommand⟩

/-- After an instruction the invariant holds, if no two flags were set before it. -/
theorem inv_after_exec {i : Instr} {s t : State} (hs : s.FlagsLegal) (h : exec i s = .next t) : t.Inv := by
  obtain ⟨data, hanswer, -⟩ := exec_answers h
  refine ⟨?_, hanswer.responseLegal⟩
  rcases exec_flags h with hsame | hone
  · exact hsame.flagsLegal hs
  · exact hone.flagsLegal

/-- Settles O3, by the four things a step can be. -/
theorem stepKeepsInvariant : Obligations.StepKeepsInvariant := by
  rintro s t ⟨hflags, -⟩ h
  obtain ⟨-, rfl⟩ | ⟨rest, -, rfl⟩ | ⟨cw, din, rest, i, -, -, hi⟩ | ⟨cw, din, rest, e, -, -, rfl⟩ := step_inv h
  case inl => exact State.inv_of_rsp_none hflags rfl
  case inr.inl => exact State.inv_resetUnit rest
  case inr.inr.inl => exact inv_after_exec (s := s.accept din rest) hflags hi
  case inr.inr.inr => exact State.inv_raiseIllegalCommand (s := s.accept din rest) hflags

/-- Settles O56, by the four things an edge can be; only the end of a command leaves a response. -/
theorem clockEdgeKeepsInvariant : Obligations.ClockEdgeKeepsInvariant := by
  rintro p c c₁ ⟨hflags, -⟩ h
  obtain ⟨-, rfl⟩ | ⟨cw, t, -, -, hrun, rfl⟩ | ⟨-, -, -, rfl⟩ | ⟨-, -, -, rfl⟩ := clockEdge_inv h
  case inl => exact State.inv_resetUnit c.unit.host
  case inr.inl =>
    obtain ⟨i, -, hi⟩ | ⟨e, -, rfl⟩ := runCommand_inv hrun
    · exact inv_after_exec hflags hi
    · exact State.inv_raiseIllegalCommand hflags
  case inr.inr.inl => exact State.inv_of_rsp_none hflags rfl
  case inr.inr.inr => exact State.inv_of_rsp_none hflags rfl

/-- Settles O2: the reset state is the state a reset leaves with nothing to come. -/
theorem invariantAtReset : Obligations.InvariantAtReset :=
  ⟨State.inv_resetUnit [], State.inv_resetUnit⟩

/-- Every byte of the zero constant is 0x00 (R12). -/
theorem byteAt_zero256 (k : Nat) : byteAt zero256 k = 0x00#8 := by
  apply BitVec.eq_of_getLsbD_eq
  intro j _
  rw [getLsbD_byteAt, getLsbD_zero256]
  simp

/-- Settles O1, by the fields of the state a reset leaves. -/
theorem resetClearsEverything : Obligations.ResetClearsEverything := by
  refine ⟨fun s rest hh => ⟨State.resetUnit rest, step_reset hh, fun r => ?_, rfl, rfl, rfl, rfl, rfl,
    State.resetUnit_status rest, rfl, rfl⟩, State.resetUnit_getP [], rfl, rfl, rfl, rfl, rfl, State.resetUnit_status []⟩
  exact ⟨State.resetUnit_getP rest r, fun k _ => by rw [State.resetUnit_getP, byteAt_zero256]⟩

end Sys2Proof.Machine
end

section
/-! PROOFS. The views of a value (spec/10_state.md R8 to R10, R13): the bytes, the bits and the number are one value,
and equality in each of them is equality of the value. -/

namespace Sys2Proof.Machine

/-- The number of a byte sequence as the base-256 sum of R10. -/
theorem bytesNumber_eq_sum (t : Nat → Byte) (n : Nat) :
    bytesNumber t n = ∑ k ∈ Finset.range n, (t k).toNat * 2 ^ (8 * k) := by
  induction n with
  | zero => rfl
  | succ n ih => rw [bytesNumber, ih, Finset.sum_range_succ, Nat.mul_comm]

/-- The low `w` bits of a number as a sum of powers of two. -/
theorem mod_two_pow_eq_sum_testBit (n w : Nat) :
    n % 2 ^ w = ∑ i ∈ Finset.range w, (if n.testBit i then 1 else 0) * 2 ^ i := by
  induction w with
  | zero => simp [Nat.mod_one]
  | succ w ih =>
    have hbit : n / 2 ^ w % 2 = if n.testBit w then 1 else 0 := by
      rw [← Nat.toNat_testBit]
      cases n.testBit w <;> rfl
    rw [Nat.mod_pow_succ, Finset.sum_range_succ, ← ih, hbit, Nat.mul_comm (2 ^ w)]

/-- The number of a value as the sum over its bits (R10). -/
theorem number_eq_sum_bitAt (v : Value) :
    number v = ∑ i ∈ Finset.range 256, (if bitAt v i then 1 else 0) * 2 ^ i := by
  calc number v = v.toNat % 2 ^ 256 := by rw [number_eq_toNat, Nat.mod_eq_of_lt v.isLt]
    _ = ∑ i ∈ Finset.range 256, (if v.toNat.testBit i then 1 else 0) * 2 ^ i := mod_two_pow_eq_sum_testBit v.toNat 256
    _ = ∑ i ∈ Finset.range 256, (if bitAt v i then 1 else 0) * 2 ^ i :=
      Finset.sum_congr rfl fun i _ => by rw [bitAt_eq_getLsbD, BitVec.testBit_toNat]

theorem number_injective : Function.Injective number := fun a b h =>
  BitVec.eq_of_toNat_eq (by rwa [number_eq_toNat, number_eq_toNat] at h)

theorem number_ofNat {n : Nat} (hn : n < 2 ^ 256) : number (BitVec.ofNat 256 n) = n := by
  rw [number_eq_toNat, BitVec.toNat_ofNat, Nat.mod_eq_of_lt hn]

/-- Bit 255 is the most significant: it is set in the upper half of the numbers (R9, R10). -/
theorem bitAt_255_iff (v : Value) : bitAt v 255 = true ↔ 2 ^ 255 ≤ number v := by
  rw [bitAt_eq_getLsbD, number_eq_toNat, ← BitVec.msb_eq_getLsbD_last, BitVec.msb_eq_decide, decide_eq_true_iff]

/-- Settles O40, view by view; the value of a number is unique because the number view is injective. -/
theorem valueViewsAgree : Obligations.ValueViewsAgree := by
  refine ⟨fun v k _ => rfl, fun v i _ => bitAt_eq_getLsbD v i, fun v => bytesNumber_eq_sum (byteAt v) 32,
    number_eq_sum_bitAt, fun n hn => ?_, fun v => ?_, bitAt_255_iff⟩
  · exact ⟨BitVec.ofNat 256 n, number_ofNat hn, fun v hv => number_injective (hv.trans (number_ofNat hn).symm)⟩
  · rw [number_eq_toNat]
    exact v.isLt

/-- Values are equal when their bits are (R13). -/
theorem value_eq_iff_bitAt (a b : Value) : a = b ↔ ∀ i < 256, bitAt a i = bitAt b i := by
  simp only [bitAt_eq_getLsbD]
  exact BitVec.eq_of_getLsbD_eq_iff

/-- Values are equal when their bytes are: bit `i` stands in byte `i / 8` (R8, R9, R13). -/
theorem value_eq_iff_byteAt (a b : Value) : a = b ↔ ∀ k < 32, byteAt a k = byteAt b k := by
  refine ⟨fun h k _ => by rw [h], fun h => value_eq_of_bits fun i hi => ?_⟩
  rw [← getLsbD_byteAt_div a, ← getLsbD_byteAt_div b, h (i / 8) (by omega)]

/-- Settles O41: the three views one by one, and `EQ` of CMP as the comparison of the numbers. -/
theorem equalityThreeForms : Obligations.EqualityThreeForms := by
  refine fun a b => ⟨value_eq_iff_bitAt a b, value_eq_iff_byteAt a b, number_injective.eq_iff.symm,
    fun rs rt s ha hb => ⟨_, exec_cmp s rs rt, ?_⟩⟩
  rw [State.complete_eq, State.setCC_eq, ha, hb]
  exact decide_eq_true_iff.trans number_injective.eq_iff

end Sys2Proof.Machine
end

section
/-! PROOFS. Which step may change which part of the state (spec/10_state.md R15 to R17), the status every response shows
(R19), and what no instruction reads: the order flags (R17) and `ILL` (R18). -/

namespace Sys2Proof.Machine

/-! ### Writers -/

/-- A part of the state that neither the handshake nor the exception writes, and an instruction only where `what` holds
of it, changes in a step only at a reset or by such an instruction. -/
theorem step_changes {α : Type} {view : State → α} {what : Instr → Prop} (hidle : ∀ s : State, view s.idle = view s)
    (haccept : ∀ (s : State) din rest, view (s.accept din rest) = view s)
    (hillegal : ∀ s : State, view s.raiseIllegalCommand = view s)
    (hexec : ∀ i s t, exec i s = .next t → ¬what i → view t = view s) {s t : State} (h : step s = .next t)
    (hne : view t ≠ view s) : PresentsReset s ∨ PresentsLegal s what := by
  obtain ⟨-, rfl⟩ | ⟨rest, hh, -⟩ | ⟨cw, din, rest, i, hh, hd, hi⟩ | ⟨cw, din, rest, e, -, -, rfl⟩ := step_inv h
  case inl => exact absurd (hidle s) hne
  case inr.inl => exact .inl ⟨rest, hh⟩
  case inr.inr.inl =>
    refine .inr ⟨cw, din, rest, i, hh, hd, ?_⟩
    by_contra hwhat
    exact hne ((hexec i _ t hi hwhat).trans (haccept s din rest))
  case inr.inr.inr => exact absurd ((hillegal _).trans (haccept s din rest)) hne

/-- Settles O48: `exec`'s frame for a register that is not the destination, and the step that lifts it. -/
theorem pathRegistersChangeOnlyAsDestination : Obligations.PathRegistersChangeOnlyAsDestination := by
  refine ⟨fun s t r h hne => ?_, fun i s t r h hr => (exec_frame h).paths r hr⟩
  exact step_changes (view := fun u => u.getP r) (fun s => s.idle_getP r) (fun s din rest => s.accept_getP din rest r)
    (fun s => s.raiseIllegalCommand_getP r) (fun i s t hi hr => (exec_frame hi).paths r hr) h hne

theorem boolByte_eq_zero_or_one (b : Bool) : boolByte b = 0x00#8 ∨ boolByte b = 0x01#8 := by
  cases b
  · exact .inl rfl
  · exact .inr rfl

/-- Of the four writers of `SR`, all but FORKH write a truth value (R16). -/
theorem exec_sr_boolean {i : Instr} {s t : State} (h : exec i s = .next t) (hi : writesScalar i = true) :
    (∃ rs rt, i = .forkh rs rt) ∨ t.sr = 0x00#8 ∨ t.sr = 0x01#8 := by
  cases i with
  | forkh rs rt => exact .inl ⟨rs, rt, rfl⟩
  | getbitI | getbitX | isrightI | isrightX | iszero => cases h; exact .inr (boolByte_eq_zero_or_one _)
  | zero | ld256 | ld160 | st256 | st160 | setbitI | setbitX | clrbitI | clrbitX | parentI | parentX | copybI | copybX
  | cmp => cases hi

/-- Settles O49: the writers of `SR`, what they write, and the status of every response. -/
theorem scalarWrittenByFourInstructions : Obligations.ScalarWrittenByFourInstructions := by
  refine ⟨fun s t h hne => ?_, fun i s t => exec_sr_boolean, fun s cw din rest hh => ?_⟩
  · exact step_changes State.idle_sr State.accept_sr State.raiseIllegalCommand_sr
      (fun i s t hi hw => (exec_frame hi).sr (Bool.eq_false_of_not_eq_true hw)) h hne
  · obtain ⟨t, r, ht, hrsp, hstatus⟩ := step_command_responds hh
    exact ⟨t, r, ht, hrsp, by rw [hstatus, t.status_scalar]⟩

/-- What a step does to the flags: a reset clears them, else they stay or exactly one is set (R17). -/
theorem step_flags {s t : State} (h : step s = .next t) : PresentsReset s ∨ SameFlags s t ∨ t.OneFlagSet := by
  obtain ⟨-, rfl⟩ | ⟨rest, hh, -⟩ | ⟨cw, din, rest, i, -, -, hi⟩ | ⟨cw, din, rest, e, -, -, rfl⟩ := step_inv h
  case inl => exact .inr (.inl ⟨rfl, rfl, rfl⟩)
  case inr.inl => exact .inl ⟨rest, hh⟩
  case inr.inr.inl => exact .inr ((exec_flags hi).imp_left fun hsame => ⟨hsame.lt, hsame.eq, hsame.gt⟩)
  case inr.inr.inr => exact .inr (.inl ⟨rfl, rfl, rfl⟩)

/-- Settles O50: only CMP writes the flags, and a step that is no reset keeps them or sets exactly one. -/
theorem flagsWrittenByCmpAlone : Obligations.FlagsWrittenByCmpAlone := by
  refine ⟨fun s t h hne => ?_, fun i s t => exec_oneFlagSet_of_writesFlags, fun s t h hreset hsome => ?_⟩
  · refine step_changes (view := fun u => (u.lt, u.eq, u.gt)) (fun s => rfl) (fun s din rest => rfl) (fun s => rfl)
      (fun i s t hi hw => ?_) h hne
    have hsame := (exec_frame hi).flags (Bool.eq_false_of_not_eq_true hw)
    rw [hsame.lt, hsame.eq, hsame.gt]
  · rcases (step_flags h).resolve_left hreset with hsame | hone
    · rwa [hsame.lt, hsame.eq, hsame.gt]
    · exact hone.someFlag

/-- Three flags of which no two are set, as the field of `STATUS` (R19). -/
theorem flagField_legal : ∀ lt eq gt : Bool, ¬(lt = true ∧ eq = true) → ¬(lt = true ∧ gt = true) →
    ¬(eq = true ∧ gt = true) → BitVec.ofBool gt ++ (BitVec.ofBool eq ++ BitVec.ofBool lt) ∈
      [0b000#3, 0b001#3, 0b010#3, 0b100#3] := by
  decide

/-- Settles O53: the fields of the status, the response of a command, and the table of the flag field. -/
theorem statusShowsStateAfter : Obligations.StatusShowsStateAfter := by
  refine ⟨fun s => ⟨s.status_scalar, s.status_lt, s.status_eq, s.status_gt, s.status_ill⟩,
    fun s cw din rest hh => step_command_responds hh, fun s hflags => ?_⟩
  obtain ⟨hle, hlg, heg⟩ := hflags
  rw [s.status_flags]
  exact flagField_legal s.lt s.eq s.gt hle hlg heg

/-! ### What no instruction reads -/

/-- A command answers the data its response was made with and no other. -/
theorem answers_respond_iff (s : State) (data d : Value) : Answers data (s.respond d) ↔ d = data := by
  simp [Answers]

theorem answers_complete_iff (s : State) (data : Value) : Answers data s.complete ↔ 0#256 = data :=
  answers_respond_iff s data 0#256

theorem dinAgrees_refl (i : Instr) (d : Value) : dinAgrees i d d := by
  unfold dinAgrees
  split <;> trivial

/-- Two states with the same path registers, `SR` and data-in value are one state to an instruction: it leaves the same
registers and `SR`, answers the same data, and writes the flags alike or leaves each state its own. -/
theorem exec_of_same_operands {i : Instr} {s s' t : State} (hp : SamePaths s s') (hsr : s'.sr = s.sr)
    (hdin : s'.din = s.din) (h : exec i s = .next t) :
    ∃ u, exec i s' = .next u ∧ SamePaths t u ∧ u.sr = t.sr ∧ (writesFlags i = true → SameFlags t u) ∧
      (writesFlags i = false → SameFlags s' u) ∧ ∀ data, Answers data t → Answers data u := by
  obtain ⟨rd, v, -, hw, rfl, hu⟩ | ⟨v, -, hw, rfl, hu⟩ | ⟨c, hw, rfl, hu⟩ | ⟨d, hw, rfl, hu⟩ :=
    exec_congr hp hsr (hdin ▸ dinAgrees_refl i s.din) h
  case inl =>
    refine ⟨_, hu, fun r => ?_, by simp [hsr], by simp [hw], fun _ => (writesPath_complete s' rd v).flags,
      fun data => by simp [answers_complete_iff]⟩
    by_cases hr : r = rd
    · simp [hr]
    · simp [State.setP_getP_ne _ v hr, hp r]
  case inr.inl =>
    exact ⟨_, hu, fun r => by simp [hp r], by simp, by simp [hw], fun _ => (writesScalar_complete s' v).flags,
      fun data => by simp [answers_complete_iff]⟩
  case inr.inr.inl =>
    exact ⟨_, hu, fun r => by simp [hp r], by simp [hsr], fun _ => ⟨rfl, rfl, rfl⟩, by simp [hw],
      fun data => by simp [answers_complete_iff]⟩
  case inr.inr.inr =>
    exact ⟨_, hu, fun r => by simp [hp r], by simp [hsr], by simp [hw], fun _ => (onlyAnswers_respond s' d).arch.flags,
      fun data => by simp [answers_respond_iff]⟩

/-- The path registers do not depend on `ILL`. -/
theorem samePaths_with_ill (s : State) (b : Bool) : SamePaths s { s with ill := b } := by
  rintro (_ | _ | _ | _) <;> rfl

/-- Settles O51: a state with other flags has the same operands. -/
theorem flagsReadByNoCommand : Obligations.FlagsReadByNoCommand := by
  intro i s c t h
  obtain ⟨u, hu, hpaths, hsr, hsame, hkeep, hanswer⟩ :=
    exec_of_same_operands (s' := s.setCC c) (s.setCC_getP c) rfl rfl h
  have hill : u.ill = t.ill := by rw [(exec_frame hu).ill, (exec_frame h).ill, State.setCC_ill]
  exact ⟨u, hu, hpaths, hsr, hill, hsame, hkeep, hanswer⟩

/-- Settles O52: `ILL` after a command word, an idle step and a reset; and a state with another `ILL` has the same
operands. -/
theorem illSticky : Obligations.IllSticky := by
  refine ⟨fun s cw din rest t hh h => ?_, fun s t hh h => ?_, ?_, fun i s b t h => ?_⟩
  · rw [step_command hh] at h
    obtain ⟨r, hrsp, hstatus⟩ := runCommand_responds h
    have hill := runCommand_ill h
    rw [State.accept_ill] at hill
    exact ⟨hill, r, hrsp, by rw [hstatus, t.status_ill]⟩
  · rw [step_idle hh] at h
    cases h
    rfl
  · rintro s t ⟨rest, hh⟩ h
    rw [step_reset hh] at h
    cases h
    rfl
  · obtain ⟨u, hu, hpaths, hsr, hsame, hkeep, hanswer⟩ :=
      exec_of_same_operands (samePaths_with_ill s b) rfl rfl h
    refine ⟨u, hu, hpaths, hsr, ?_, hanswer⟩
    cases hw : writesFlags i with
    | true => exact hsame hw
    | false =>
      have ht := (exec_frame h).flags hw
      have hu' := hkeep hw
      exact ⟨hu'.lt.trans ht.lt.symm, hu'.eq.trans ht.eq.symm, hu'.gt.trans ht.gt.symm⟩

end Sys2Proof.Machine
end

section
/-! PROOFS. The ports and the handshake (spec/20_memory.md R28, R30, R31; spec/93_implementation_defined.md U6). Of what
stands on the ports a command reads the data-in value alone, and of that only the bits its instruction uses: data-in
value and later events pass through it as they stood, and it replaces an old response unread (`exec_with_ports`). All
three statements follow from this. -/

namespace Sys2Proof.Machine

/-! ### What a command keeps and reads of the ports -/

/-- No instruction changes the data-in value or the later events. -/
theorem exec_sameInput {i : Instr} {s t : State} (h : exec i s = .next t) : SameInput s t := by
  obtain ⟨rd, v, -, -, -, -, rfl⟩ | ⟨v, -, -, -, -, rfl⟩ | ⟨rs, rt, -, rfl⟩ | ⟨data, -, -, -, -, rfl⟩ := exec_inv h
  · exact (writesPath_complete s rd v).input
  · exact (writesScalar_complete s v).input
  · exact (writesFlags_complete s _).input
  · exact (onlyAnswers_respond s data).input

/-- No command word changes the data-in value or the later events, legal or not. -/
theorem runCommand_sameInput {cw : CmdWord} {s t : State} (h : runCommand cw s = .next t) : SameInput s t := by
  obtain ⟨i, -, hi⟩ | ⟨e, -, rfl⟩ := runCommand_inv h
  · exact exec_sameInput hi
  · exact ⟨s.raiseIllegalCommand_din, s.raiseIllegalCommand_host⟩

section Ports

variable (s : State) (din : Value) (rsp : Option Response) (rest : List HostEvent)

/-- The path registers do not depend on the ports. -/
theorem samePaths_with_ports : SamePaths s { s with din := din, rsp := rsp, host := rest } := by
  rintro (_ | _ | _ | _) <;> rfl

/-- A write to a path register leaves the ports, and answering it replaces the response alone. -/
theorem State.setP_complete_with_ports (rd : PReg) (v : Value) :
    (State.setP { s with din := din, rsp := rsp, host := rest } rd v).complete =
      (s.setP rd v).complete.accept din rest := by
  cases rd <;> rfl

end Ports

/-- Whatever old response and later events are on the ports, and with any data-in value the instruction cannot tell from
the given one, the outcome is the same but for these inputs (U6). -/
theorem exec_with_ports {i : Instr} {s t : State} {din : Value} (rsp : Option Response) (rest : List HostEvent)
    (hd : dinAgrees i s.din din) (h : exec i s = .next t) :
    exec i { s with din := din, rsp := rsp, host := rest } = .next (t.accept din rest) := by
  obtain ⟨rd, v, -, -, rfl, hu⟩ | ⟨v, -, -, rfl, hu⟩ | ⟨c, -, rfl, hu⟩ | ⟨data, -, rfl, hu⟩ :=
    exec_congr (samePaths_with_ports s din rsp rest) rfl hd h
  · rw [hu, State.setP_complete_with_ports]
  · exact hu
  · exact hu
  · exact hu

/-- Whatever old response and later events are on the ports, a command word has the same outcome but for those events. -/
theorem runCommand_with_ports {cw : CmdWord} {s t : State} (rsp : Option Response) (rest : List HostEvent)
    (h : runCommand cw s = .next t) :
    runCommand cw { s with rsp := rsp, host := rest } = .next { t with host := rest } := by
  rw [← show t.accept s.din rest = { t with host := rest } by rw [State.accept, ← (runCommand_sameInput h).din]]
  unfold runCommand
  obtain ⟨i, hd, hi⟩ | ⟨e, hd, rfl⟩ := runCommand_inv h
  · simpa only [hd] using exec_with_ports rsp rest (dinAgrees_refl i s.din) hi
  · simp only [hd]
    rfl

/-- Settles O16: the inputs pass through `exec`, and the host's list is the one of them that stays. -/
theorem unusedDataInIgnored : Obligations.UnusedDataInIgnored := by
  intro i s d₁ d₂ t hd h
  have hhost : t.host = s.host := (exec_sameInput h).host
  calc exec i { s with din := d₂ }
    _ = .next (t.accept d₂ s.host) := exec_with_ports (s := { s with din := d₁ }) s.rsp s.host hd h
    _ = .next { t with din := d₂ } := by rw [State.accept, ← hhost]

/-- Settles O14: a reset drops all but the later events, and a command's outcome has them as they stood. -/
theorem eventsRunInOrder : Obligations.EventsRunInOrder := by
  intro s e rest hh
  cases e with
  | reset => exact ⟨State.resetUnit rest, step_reset hh, rfl, fun rest' => step_reset rfl⟩
  | command cw din =>
    obtain ⟨t, ht⟩ := runCommand_completes cw (s.accept din rest)
    refine ⟨t, (step_command hh).trans ht, (runCommand_sameInput ht).host, fun rest' => ?_⟩
    calc step { s with host := .command cw din :: rest' }
      _ = runCommand cw (s.accept din rest') := step_command rfl
      _ = .next { t with host := rest' } := runCommand_with_ports s.rsp rest' ht

/-! ### Edges without reset (R31) -/

section Edges

variable {p : PortsIn} {c : Clocked} (hrst : p.rst = false)
include hrst

/-- A valid command is accepted where the unit is ready. -/
theorem clockEdge_accept (hphase : c.phase = .ready) (hvalid : p.cmdValid = true) :
    clockEdge p c = .next (c.afterAccept p.cmdWord p.cmdData) := by
  simp [clockEdge, hrst, hphase, hvalid]

/-- Where the unit is ready and no command is valid, the edge is idle. -/
theorem clockEdge_idle (hphase : c.phase = .ready) (hvalid : p.cmdValid = false) :
    clockEdge p c = .next c.afterIdle := by
  simp [clockEdge, hrst, hphase, hvalid]

/-- The edge after acceptance ends the command, whatever else is on the ports. -/
theorem clockEdge_finish {cw : CmdWord} {t : State} (hphase : c.phase = .performing cw)
    (ht : runCommand cw c.unit = .next t) : clockEdge p c = .next ⟨t, .ready⟩ := by
  simp [clockEdge, hrst, hphase, Clocked.finish, ht]

/-- After an edge on the ready unit no response stands, and a command that was valid is being performed. -/
theorem clockEdge_clears_response (hphase : c.phase = .ready) : ∃ c₁, clockEdge p c = .next c₁ ∧
    (c₁.outputs false).rsp = none ∧ (p.cmdValid = true → c₁.phase = .performing p.cmdWord) := by
  cases hvalid : p.cmdValid with
  | true => exact ⟨_, clockEdge_accept hrst hphase hvalid, rfl, fun _ => rfl⟩
  | false => exact ⟨_, clockEdge_idle hrst hphase hvalid, rfl, fun h => by cases h⟩

end Edges

/-- Accepting a command writes the port fields alone. -/
theorem Clocked.afterAccept_sameArch (c : Clocked) (cw : CmdWord) (din : Value) :
    SameArch c.unit (c.afterAccept cw din).unit :=
  ⟨fun r => (State.accept_getP c.unit.idle din c.unit.host r).trans (c.unit.idle_getP r), rfl, ⟨rfl, rfl, rfl⟩, rfl⟩

/-- The accepted command is the one `step` takes: the old response, gone since acceptance, has no effect on it. -/
theorem step_of_runCommand_afterAccept {c : Clocked} {cw : CmdWord} {din : Value} {t : State}
    (h : runCommand cw (c.afterAccept cw din).unit = .next t) :
    step { c.unit with host := .command cw din :: c.unit.host } = .next t := by
  have hhost : t.host = c.unit.host := (runCommand_sameInput h).host
  calc step { c.unit with host := .command cw din :: c.unit.host }
    _ = runCommand cw (c.unit.accept din c.unit.host) := step_command rfl
    _ = .next { t with host := c.unit.host } := runCommand_with_ports c.unit.rsp c.unit.host h
    _ = .next t := by rw [← hhost]

/-- Settles O54, edge by edge: acceptance, the end of the command, and the edge that takes its response away. -/
theorem handshakePerformsStep : Obligations.HandshakePerformsStep := by
  intro c p hphase hrst hvalid
  refine ⟨c.afterAccept p.cmdWord p.cmdData, clockEdge_accept hrst hphase hvalid,
    c.afterAccept_sameArch p.cmdWord p.cmdData, rfl, fun q hq => ?_⟩
  obtain ⟨t, ht⟩ := runCommand_completes p.cmdWord (c.afterAccept p.cmdWord p.cmdData).unit
  obtain ⟨r, hrsp, -⟩ := runCommand_responds ht
  refine ⟨⟨t, .ready⟩, r, clockEdge_finish hq rfl ht, step_of_runCommand_afterAccept ht, hrsp, ?_,
    fun w hw => clockEdge_clears_response hw rfl⟩
  simp only [Clocked.outputs, hrsp]

end Sys2Proof.Machine
end

section
/-! PROOFS. The command encoding (spec/30_encoding.md R32 to R39). A row of R37 accepts a word exactly where its form
admits the word's fields (`Form.row_matchesWord`), and no fields are admitted by two forms, since `OP` and `X` name the
form. So decoding is the one form that admits the fields, and encoding goes back through the same fields. -/

namespace Sys2Proof

/-! ### Forms and the fields they admit (R33, R37) -/

/-- A form admits exactly its opcode, its `X` bit and zero in each unused field (R33). -/
theorem Form.admits_iff {r : Form} {g : Fields} :
    r.admits g = true ↔
      g.op = r.op ∧ unusedZero r.format.fieldUse.rd g.rd = true ∧ unusedZero r.format.fieldUse.rs1 g.rs1 = true ∧
        unusedZero r.format.fieldUse.rs2 g.rs2 = true ∧ g.x = r.format.fieldUse.x ∧
        unusedZero r.format.fieldUse.f g.f = true ∧ unusedZero r.format.fieldUse.idx g.idx = true ∧ g.z = 0#8 := by
  simp only [Form.admits, Bool.and_eq_true, beq_iff_eq, and_assoc]

/-- The opcode and the `X` bit name the form (R37). -/
theorem Form.eq_of_op_eq_of_x_eq {q r : Form} (hop : q.op = r.op) (hx : q.format.fieldUse.x = r.format.fieldUse.x) :
    q = r := by
  have table : ∀ q ∈ Form.all, ∀ r ∈ Form.all,
      q.op = r.op → q.format.fieldUse.x = r.format.fieldUse.x → q = r := by decide
  exact table q q.mem_all r r.mem_all hop hx

/-- No fields are admitted by two forms. -/
theorem Form.eq_of_admits {q r : Form} {g : Fields} (hq : q.admits g = true) (hr : r.admits g = true) : q = r := by
  obtain ⟨hqop, -, -, -, hqx, -⟩ := Form.admits_iff.mp hq
  obtain ⟨hrop, -, -, -, hrx, -⟩ := Form.admits_iff.mp hr
  exact Form.eq_of_op_eq_of_x_eq (hqop.symm.trans hrop) (hqx.symm.trans hrx)

/-- The mask and match of a row, as R37 writes the test (`Form.row_matchesWord` without the truth value). -/
theorem Form.and_mask_eq_pattern_iff (r : Form) (cw : CmdWord) :
    cw &&& r.row.mask = r.row.pattern ↔ r.admits (Fields.ofWord cw) = true := by
  rw [← r.row_matchesWord, Row.matchesWord, beq_iff_eq]

theorem Fields.wellFormed_iff (g : Fields) : g.wellFormed = true ↔ ∃ r : Form, r.admits g = true := by
  simp only [Fields.wellFormed, List.any_eq_true, Form.mem_all, true_and]

/-- The SR formats have no immediate (R33). -/
theorem Format.idx_unused_of_x {m : Format} (h : m.fieldUse.x = 1#1) : m.fieldUse.idx = false := by
  revert h
  cases m <;> decide

/-- 0x00 and 0xFF are the opcodes of no form (R38). -/
theorem Form.op_ne_zero_and_ne_ones (r : Form) : r.op ≠ 0x00#8 ∧ r.op ≠ 0xFF#8 := by
  cases r <;> decide

/-! ### Decoding -/

/-- What the decoder answers (R39): the form that admits the word's fields, with its operands; or, where no form does,
the reason the fields give (R38). -/
theorem decode_cases (cw : CmdWord) :
    (∃ r : Form, r.admits (Fields.ofWord cw) = true ∧ decode cw = .ok (r.build (Fields.ofWord cw))) ∨
    ((Fields.ofWord cw).wellFormed = false ∧ decode cw = .error (Fields.ofWord cw).whyIllegal) := by
  unfold decode
  split
  next r hr =>
    have hmatch := List.find?_some hr
    exact .inl ⟨r, (r.row_matchesWord cw).symm.trans hmatch, rfl⟩
  next hnone =>
    refine .inr ⟨?_, rfl⟩
    rw [← Bool.not_eq_true, Fields.wellFormed_iff]
    rintro ⟨r, hr⟩
    exact List.find?_eq_none.mp hnone r r.mem_all ((r.row_matchesWord cw).trans hr)

theorem decode_eq_ok_iff {cw : CmdWord} {i : Instr} :
    decode cw = .ok i ↔ ∃ r : Form, r.admits (Fields.ofWord cw) = true ∧ r.build (Fields.ofWord cw) = i := by
  rcases decode_cases cw with ⟨q, hq, hd⟩ | ⟨hwf, hd⟩ <;> rw [hd]
  · refine ⟨fun h => ⟨q, hq, Except.ok.inj h⟩, ?_⟩
    rintro ⟨r, hr, rfl⟩
    rw [Form.eq_of_admits hq hr]
  · refine iff_of_false nofun ?_
    rintro ⟨r, hr, -⟩
    simp [(Fields.wellFormed_iff _).mpr ⟨r, hr⟩] at hwf

/-- The legal words are those whose fields some form admits (R33, R38). -/
theorem exists_decode_eq_ok_iff (cw : CmdWord) : (∃ i, decode cw = .ok i) ↔ (Fields.ofWord cw).wellFormed = true := by
  simp only [decode_eq_ok_iff, Fields.wellFormed_iff]
  exact ⟨fun ⟨_, r, hr, _⟩ => ⟨r, hr⟩, fun ⟨r, hr⟩ => ⟨_, r, hr, rfl⟩⟩

/-! ### Encoding -/

/-- The form an instruction is written in: the row of its constructor (R37). -/
def Instr.form : Instr → Form
  | .zero _        => .zero
  | .ld256 _       => .ld256
  | .ld160 _ _     => .ld160
  | .st256 _       => .st256
  | .st160 _ _     => .st160
  | .getbitI _ _   => .getbitI
  | .getbitX _     => .getbitX
  | .setbitI _ _   => .setbitI
  | .setbitX _     => .setbitX
  | .clrbitI _ _   => .clrbitI
  | .clrbitX _     => .clrbitX
  | .isrightI _ _  => .isrightI
  | .isrightX _    => .isrightX
  | .iszero _      => .iszero
  | .forkh _ _     => .forkh
  | .parentI _ _ _ => .parentI
  | .parentX _ _   => .parentX
  | .copybI _ _ _  => .copybI
  | .copybX _ _    => .copybX
  | .cmp _ _       => .cmp

/-- An instruction's fields are of its own form. -/
theorem Instr.form_admits_fields (i : Instr) : i.form.admits i.fields = true := by
  cases i <;> rfl

/-- The operands read back from an instruction's fields are its own. -/
theorem Instr.form_build_fields (i : Instr) : i.form.build i.fields = i := by
  cases i <;> simp [Instr.form, Form.build, Instr.fields]

/-- The instruction built from admitted fields sets exactly these fields. -/
theorem Form.fields_build {r : Form} {g : Fields} (h : r.admits g = true) : (r.build g).fields = g := by
  obtain ⟨op, rd, rs1, rs2, x, f, idx, z⟩ := g
  obtain ⟨hop, hrd, hrs1, hrs2, hx, hf, hidx, hz⟩ := Form.admits_iff.mp h
  cases r <;>
    simp_all [Form.build, Instr.fields, Form.op, Form.format, Format.fieldUse, unusedZero]

/-- Decoding inverts encoding (R33). -/
theorem decode_encode (i : Instr) : decode (encode i) = .ok i := by
  refine decode_eq_ok_iff.mpr ⟨i.form, ?_⟩
  rw [encode, Fields.ofWord_toWord]
  exact ⟨i.form_admits_fields, i.form_build_fields⟩

/-- Encoding inverts decoding (R33). -/
theorem encode_of_decode {cw : CmdWord} {i : Instr} (h : decode cw = .ok i) : encode i = cw := by
  obtain ⟨r, hr, rfl⟩ := decode_eq_ok_iff.mp h
  rw [encode, Form.fields_build hr, Fields.toWord_ofWord]

/-- Settles O4: the form of an instruction admits its fields and builds it from them again. -/
theorem decodeInvertsEncode : Obligations.DecodeInvertsEncode := decode_encode

/-- Settles O5: the instruction of a word has the word's fields. -/
theorem encodeInvertsDecode : Obligations.EncodeInvertsDecode := fun _ _ => encode_of_decode

/-- Settles O7: a word that satisfies two rows has fields that both their forms admit. -/
theorem opcodeRowsDisjoint : Obligations.OpcodeRowsDisjoint := by
  intro cw q r hq hr
  rw [Form.and_mask_eq_pattern_iff] at hq hr
  exact Form.eq_of_admits hq hr

/-- Settles O9: each word is the encoding of the instruction beside it. -/
theorem tableWordsDecode : Obligations.TableWordsDecode :=
  ⟨decode_encode (.zero .p2), decode_encode (.ld160 .b .p3), decode_encode (.getbitI .p3 255#8),
    decode_encode (.forkh .p3 .p2), decode_encode (.parentI .p3 .p1 2#8), decode_encode (.copybX .p3 .p3),
    decode_encode (.cmp .p2 .p3)⟩

/-- `unknownOp` is the reason of the fields whose opcode no form has (R38). -/
theorem Fields.whyIllegal_eq_unknownOp_iff (g : Fields) : g.whyIllegal = .unknownOp ↔ ∀ r : Form, r.op ≠ g.op := by
  have hall : Form.all.all (fun r => r.op != g.op) = true ↔ ∀ r : Form, r.op ≠ g.op := by
    simp only [List.all_eq_true, Form.mem_all, true_imp_iff, bne_iff_ne]
  rw [← hall, Fields.whyIllegal]
  split
  next h => simp only [h]
  next h =>
    refine iff_of_false ?_ h
    split_ifs <;> nofun

/-- Settles O6: legal means admitted by a form, and no form admits an opcode it does not have. -/
theorem legalExactlyByFields : Obligations.LegalExactlyByFields := by
  refine ⟨exists_decode_eq_ok_iff, fun cw => ?_⟩
  rcases decode_cases cw with ⟨r, hr, hd⟩ | ⟨-, hd⟩ <;> rw [hd]
  · exact iff_of_false nofun fun hop => hop r (Form.admits_iff.mp hr).1.symm
  · rw [Except.error.injEq, Fields.whyIllegal_eq_unknownOp_iff]

/-! ### The list of the legal words (R38) -/

/-- The values a field may have: all of them where the format uses it, else zero alone (R33). -/
def fieldValues (w : Nat) (used : Bool) : List (BitVec w) :=
  if used then (List.finRange (2 ^ w)).map BitVec.ofFin else [0#w]

theorem mem_fieldValues {w : Nat} {used : Bool} {v : BitVec w} :
    v ∈ fieldValues w used ↔ unusedZero used v = true := by
  cases used <;> simp [fieldValues, unusedZero]

theorem nodup_fieldValues (w : Nat) (used : Bool) : (fieldValues w used).Nodup := by
  cases used with
  | true => exact (List.nodup_finRange _).map fun a b h => congrArg BitVec.toFin h
  | false => exact List.nodup_singleton _

theorem length_fieldValues (w : Nat) (used : Bool) : (fieldValues w used).length = if used then 2 ^ w else 1 := by
  cases used <;> simp [fieldValues]

/-- The operand fields a form can have: `RD`, `RS1`, `RS2`, `F`, `IDX`. -/
def Form.operands (r : Form) : List (BitVec 2 × BitVec 2 × BitVec 2 × BitVec 1 × BitVec 8) :=
  fieldValues 2 r.format.fieldUse.rd ×ˢ fieldValues 2 r.format.fieldUse.rs1 ×ˢ fieldValues 2 r.format.fieldUse.rs2 ×ˢ
    fieldValues 1 r.format.fieldUse.f ×ˢ fieldValues 8 r.format.fieldUse.idx

/-- The fields of a form with given operand fields. -/
def Form.withOperands (r : Form) : BitVec 2 × BitVec 2 × BitVec 2 × BitVec 1 × BitVec 8 → Fields
  | (rd, rs1, rs2, f, idx) => ⟨r.op, rd, rs1, rs2, r.format.fieldUse.x, f, idx, 0#8⟩

/-- The words of a form: those that satisfy its row of R37. -/
def Form.words (r : Form) : List CmdWord := r.operands.map fun o => (r.withOperands o).toWord

theorem Form.mem_words {r : Form} {cw : CmdWord} : cw ∈ r.words ↔ r.admits (Fields.ofWord cw) = true := by
  simp only [Form.words, List.mem_map, Form.operands, Prod.exists, List.mem_product, mem_fieldValues]
  constructor
  · rintro ⟨rd, rs1, rs2, f, idx, ⟨hrd, hrs1, hrs2, hf, hidx⟩, rfl⟩
    rw [Fields.ofWord_toWord]
    exact Form.admits_iff.mpr ⟨rfl, hrd, hrs1, hrs2, rfl, hf, hidx, rfl⟩
  · intro h
    obtain ⟨hop, hrd, hrs1, hrs2, hx, hf, hidx, hz⟩ := Form.admits_iff.mp h
    refine ⟨_, _, _, _, _, ⟨hrd, hrs1, hrs2, hf, hidx⟩, ?_⟩
    rw [Form.withOperands, ← hop, ← hx, ← hz, Fields.toWord_ofWord]

theorem Form.nodup_words (r : Form) : r.words.Nodup := by
  refine List.Nodup.map (fun o o' h => ?_) ?_
  · simpa [Form.withOperands, Prod.ext_iff] using Fields.toWord_inj h
  · exact (nodup_fieldValues _ _).product ((nodup_fieldValues _ _).product ((nodup_fieldValues _ _).product
      ((nodup_fieldValues _ _).product (nodup_fieldValues _ _))))

/-- The legal words, row by row. -/
def legalWords : List CmdWord := Form.all.flatMap Form.words

theorem mem_legalWords {cw : CmdWord} : cw ∈ legalWords ↔ (Fields.ofWord cw).wellFormed = true := by
  simp only [legalWords, List.mem_flatMap, Form.mem_all, true_and, Form.mem_words, Fields.wellFormed_iff]

/-- The words of two forms are different words. -/
theorem nodup_legalWords : legalWords.Nodup := by
  refine List.nodup_flatMap.mpr ⟨fun r _ => r.nodup_words, ?_⟩
  refine List.Pairwise.imp (fun {q r} hne => ?_) (show Form.all.Pairwise (· ≠ ·) by decide)
  exact fun cw hq hr => hne (Form.eq_of_admits (Form.mem_words.mp hq) (Form.mem_words.mp hr))

/-- The sum over the rows of the number of operand fields each can have (R38). -/
theorem length_legalWords : legalWords.length = 12400 := by
  simp only [legalWords, List.length_flatMap, Form.words, List.length_map, Form.operands, List.length_product,
    length_fieldValues]
  decide

end Sys2Proof
end

section
/-! PROOFS. Words as commands (spec/30_encoding.md R38, R39): what an illegal word is and does, and what a legal one
runs; and MOV, the COPYB that keeps every bit (R41). -/

namespace Sys2Proof.Machine

/-! ### Illegal words (R38) -/

theorem illegalCommand_iff_forall_not_admits (cw : CmdWord) :
    IllegalCommand cw ↔ ∀ r : Form, ¬r.admits (Fields.ofWord cw) = true :=
  forall_congr' fun r => not_congr (r.and_mask_eq_pattern_iff cw)

/-- A word is illegal exactly where its fields are. -/
theorem illegalCommand_iff_not_wellFormed (cw : CmdWord) :
    IllegalCommand cw ↔ (Fields.ofWord cw).wellFormed = false := by
  rw [illegalCommand_iff_forall_not_admits, ← Bool.not_eq_true, Fields.wellFormed_iff, not_exists]

theorem not_illegalCommand_iff (cw : CmdWord) : ¬IllegalCommand cw ↔ ∃ i, decode cw = .ok i := by
  rw [illegalCommand_iff_not_wellFormed, Bool.not_eq_false, exists_decode_eq_ok_iff]

theorem mem_legalWords_iff_not_illegalCommand (cw : CmdWord) : cw ∈ legalWords ↔ ¬IllegalCommand cw := by
  rw [mem_legalWords, illegalCommand_iff_not_wellFormed, Bool.not_eq_false]

/-- A word without a listed opcode is illegal. -/
theorem illegalCommand_of_unknown_op {cw : CmdWord} (h : ∀ r : Form, r.op ≠ (Fields.ofWord cw).op) :
    IllegalCommand cw := by
  rw [illegalCommand_iff_forall_not_admits]
  exact fun r hr => h r (Form.admits_iff.mp hr).1.symm

/-- A word with a non-zero `Z` is illegal. -/
theorem illegalCommand_of_z_ne {g : Fields} (h : g.z ≠ 0#8) : IllegalCommand g.toWord := by
  rw [illegalCommand_iff_forall_not_admits, Fields.ofWord_toWord]
  intro r hr
  obtain ⟨-, -, -, -, -, -, -, hz⟩ := Form.admits_iff.mp hr
  exact h hz

/-- A word with `X = 1` and a non-zero `IDX` is illegal, whatever its opcode. -/
theorem illegalCommand_of_x_of_idx_ne {g : Fields} (hx : g.x = 1#1) (hidx : g.idx ≠ 0#8) :
    IllegalCommand g.toWord := by
  rw [illegalCommand_iff_forall_not_admits, Fields.ofWord_toWord]
  intro r hr
  obtain ⟨-, -, -, -, hrx, -, hridx, -⟩ := Form.admits_iff.mp hr
  rw [Format.idx_unused_of_x (hrx.symm.trans hx)] at hridx
  exact hidx (by simpa [unusedZero] using hridx)

/-! ### Running a word (R28, R39) -/

theorem runCommand_of_decode {cw : CmdWord} {i : Instr} (h : decode cw = .ok i) (s : State) :
    runCommand cw s = exec i s := by
  simp only [runCommand, h]

theorem runCommand_of_illegal {cw : CmdWord} (h : IllegalCommand cw) (s : State) :
    runCommand cw s = .next s.raiseIllegalCommand := by
  obtain ⟨e, he⟩ := (illegalCommand_iff_decode_error cw).mp h
  simp only [runCommand, he]

/-- 242 opcode values are those of no form (R38). -/
theorem length_unlisted_opcodes :
    ((List.range 256).filter fun n => Form.all.all fun r => r.op != BitVec.ofNat 8 n).length = 242 := by
  decide +kernel

/-- Settles O8, clause by clause: illegal words by their fields, and the legal ones by the list of the rows' words. -/
theorem illegalWordsAreTheRest : Obligations.IllegalWordsAreTheRest :=
  ⟨fun cw s h => ⟨fun hlegal => (not_illegalCommand_iff cw).mpr hlegal h, runCommand_of_illegal h s⟩,
    fun cw => (not_illegalCommand_iff cw).mp, length_unlisted_opcodes, Form.op_ne_zero_and_ne_ones,
    illegalCommand_of_unknown_op fun r => r.op_ne_zero_and_ne_ones.1,
    illegalCommand_of_unknown_op fun r => r.op_ne_zero_and_ne_ones.2,
    illegalCommand_iff_not_wellFormed, fun _ => illegalCommand_of_z_ne, fun _ => illegalCommand_of_x_of_idx_ne,
    legalWords, nodup_legalWords, length_legalWords, mem_legalWords_iff_not_illegalCommand⟩

/-- Sampling the data-in value and dropping the event changes no architectural state (R20, R31). -/
theorem State.accept_sameArch (s : State) (din : Value) (rest : List HostEvent) : SameArch s (s.accept din rest) :=
  ⟨s.accept_getP din rest, s.accept_sr din rest, ⟨s.accept_lt din rest, s.accept_eq din rest, s.accept_gt din rest⟩,
    s.accept_ill din rest⟩

/-- Settles O10: the presented command is run, and its word decodes to the instruction. -/
theorem stepRunsDecodedInstruction : Obligations.StepRunsDecodedInstruction := by
  intro s cw din rest i hh hd
  exact ⟨(step_command hh).trans (runCommand_of_decode hd (s.accept din rest)), s.accept_din din rest,
    s.accept_host din rest, s.accept_rsp din rest, s.accept_sameArch din rest⟩

/-! ### MOV (R41) -/

/-- From position 0 on is every bit of the value (R57). -/
theorem copyBits_zero (v : Value) : copyBits v 0#8 = v :=
  value_eq_of_bits fun j _ => by simp [getLsbD_copyBits]

/-- Writing a register with its own value changes nothing. -/
theorem State.setP_getP_self (s : State) (r : PReg) : s.setP r (s.getP r) = s := by
  cases r <;> rfl

/-- MOV writes the source's value to the destination. -/
theorem exec_mov (d r : PReg) (s : State) : exec (Instr.mov d r) s = .next (s.setP d (s.getP r)).complete := by
  rw [Instr.mov, exec_copybI, copyBits_zero]

/-- Settles O39: MOV is one register write, and onto itself the write of the value that stands there. -/
theorem movCopiesValue : Obligations.MovCopiesValue := by
  refine ⟨fun d r => rfl, fun d r s => ⟨_, exec_mov d r s, writesPath_complete s d (s.getP r)⟩, fun r s => ?_⟩
  refine ⟨s.complete, ?_, onlyAnswers_respond s 0#256⟩
  rw [exec_mov, s.setP_getP_self]

end Sys2Proof.Machine
end

section
/-! PROOFS. Construction and conversion (spec/40_construct_convert.md R42, R43, R45, R47): the encoding of a row of R37,
the 256-bit commands ZERO, LD256 and ST256, and the laws of the 160-bit window at every offset. -/

namespace Sys2Proof.Machine

/-- A row of R37 encodes the instructions its form builds. -/
theorem encodedAs_row (r : Form) : EncodedAs r.row.mask r.row.pattern r.build := fun cw h =>
  decode_eq_ok_iff.mpr ⟨r, (r.and_mask_eq_pattern_iff cw).mp h, rfl⟩

/-! ### ZERO, LD256 and ST256 -/

/-- No bit of the zero constant is set (R12). -/
theorem bitAt_zero256 (i : Nat) : bitAt zero256 i = false := by
  rw [bitAt_eq_getLsbD, getLsbD_zero256]

/-- The register a command has written and completed holds the value written. -/
theorem State.setP_complete_getP_same (s : State) (r : PReg) (v : Value) : (s.setP r v).complete.getP r = v := by
  rw [State.complete_getP, State.setP_getP_same]

/-- Settles O17: the state ZERO leaves holds the zero constant, so its bytes, its zero test and its bits are known. -/
theorem zeroWritesZeroConstant : Obligations.ZeroWritesZeroConstant := by
  refine ⟨encodedAs_row .zero, fun rd s => ⟨_, exec_zero s rd, writesPath_complete s rd zero256, fun k _ => ?_,
    ⟨_, exec_iszero _ rd, ?_⟩, fun i => ⟨_, exec_getbitI _ rd i, ?_⟩⟩⟩
  · rw [State.setP_complete_getP_same, byteAt_zero256]
  · rw [State.complete_sr, State.setSR_sr, State.setP_complete_getP_same, (isZero_iff zero256).mpr rfl]
    rfl
  · rw [State.complete_sr, State.setSR_sr, State.setP_complete_getP_same, bitAt_zero256]
    rfl

/-- Settles O18: the value written is the data-in value itself, byte by byte. -/
theorem ld256CopiesDataIn : Obligations.Ld256CopiesDataIn := by
  refine ⟨encodedAs_row .ld256, fun rd s => ⟨_, exec_ld256 s rd, writesPath_complete s rd s.din, fun k _ j hj => ?_⟩⟩
  rw [State.setP_complete_getP_same, getLsbD_byteAt, decide_eq_true hj, Bool.true_and]

/-- Settles O20: ST256 only drives the register's value on the data-out port. -/
theorem st256DrivesValue : Obligations.St256DrivesValue :=
  ⟨encodedAs_row .st256, fun rs s => ⟨_, exec_st256 s rs, onlyAnswers_respond s (s.getP rs)⟩⟩

/-- Settles O22: ST256 drives the value LD256 has written, and LD256 writes the value ST256 has driven. -/
theorem roundTrip256 : Obligations.RoundTrip256 := by
  refine ⟨fun rd s => ⟨_, _, exec_ld256 s rd, exec_st256 _ rd, ?_⟩,
    fun rd rs s => ⟨_, _, _, exec_st256 s rs, State.respond_rsp s _, exec_ld256 _ rd, ?_⟩⟩
  · rw [answers_respond_iff, State.setP_complete_getP_same]
  · rw [State.setP_complete_getP_same]

/-! ### The 160-bit window (R47 items 3 to 5) -/

section Window

variable {off : Nat} (hoff : off ≤ 12)
include hoff

/-- Widening shifts the 160 bits to the window (R44). -/
theorem widen160_eq_shiftLeft (d : Value) :
    widen160 off d = (d.extractLsb' 0 160).setWidth 256 <<< (8 * off) := by
  apply value_eq_of_bits
  intro j hj
  rw [getLsbD_widen160 off d hoff, BitVec.getLsbD_shiftLeft, BitVec.getLsbD_setWidth, BitVec.getLsbD_extractLsb',
    Nat.zero_add]
  by_cases hw : 8 * off ≤ j ∧ j < 8 * off + 160
  · simp [hw, hj, show ¬ j < 8 * off by omega, show j - 8 * off < 256 by omega, show j - 8 * off < 160 by omega]
  · rw [decide_eq_false hw, Bool.false_and]
    by_cases hlow : j < 8 * off
    · simp [hlow]
    · simp [show ¬ j - 8 * off < 160 by omega]

/-- The number of a widened value (R44): the window ends inside the value, so no bit is shifted out. -/
theorem number_widen160 (d : Value) :
    number (widen160 off d) = (d.extractLsb' 0 160).toNat * 2 ^ (8 * off) := by
  have hfits : (d.extractLsb' 0 160).toNat * 2 ^ (8 * off) < 2 ^ 256 :=
    calc (d.extractLsb' 0 160).toNat * 2 ^ (8 * off)
        < 2 ^ 160 * 2 ^ (8 * off) := Nat.mul_lt_mul_of_pos_right (BitVec.isLt _) (Nat.two_pow_pos _)
      _ = 2 ^ (160 + 8 * off) := (Nat.pow_add 2 160 (8 * off)).symm
      _ ≤ 2 ^ 256 := Nat.pow_le_pow_right (by decide) (by omega)
  rw [number_eq_toNat, widen160_eq_shiftLeft hoff, BitVec.toNat_shiftLeft,
    BitVec.toNat_setWidth_of_le (by decide), Nat.shiftLeft_eq, Nat.mod_eq_of_lt hfits]

/-- Widening keeps the order of the 160-bit numbers (R47 item 5). -/
theorem widen160_ltByNumber_iff (d e : Value) :
    LtByNumber (widen160 off d) (widen160 off e) ↔ (d.extractLsb' 0 160).toNat < (e.extractLsb' 0 160).toNat := by
  rw [LtByNumber, number_widen160 hoff, number_widen160 hoff]
  exact Nat.mul_lt_mul_right (Nat.two_pow_pos _)

/-- Widening is injective on the 160 bits (R44, R47 item 3). -/
theorem widen160_eq_iff (d e : Value) :
    widen160 off d = widen160 off e ↔ d.extractLsb' 0 160 = e.extractLsb' 0 160 := by
  rw [← number_injective.eq_iff, number_widen160 hoff, number_widen160 hoff,
    Nat.mul_left_inj (Nat.two_pow_pos _).ne', BitVec.toNat_inj]

/-- Only 160 zero bits widen to the zero constant (R47 item 5). -/
theorem widen160_eq_zero256_iff (d : Value) : widen160 off d = zero256 ↔ d.extractLsb' 0 160 = 0#160 := by
  have hzero : widen160 off 0#256 = zero256 := by
    rw [widen160_eq_shiftLeft hoff]
    simp [zero256]
  rw [← hzero, widen160_eq_iff hoff, BitVec.extractLsb'_zero]

/-- Narrowing undoes widening on the 160 bits (R47 item 3). -/
theorem narrow160_widen160 (d : Value) : narrow160 off (widen160 off d) = (d.extractLsb' 0 160).setWidth 256 := by
  apply value_eq_of_bits
  intro j hj
  rw [getLsbD_narrow160, getLsbD_widen160 off d hoff, BitVec.getLsbD_setWidth, BitVec.getLsbD_extractLsb',
    Nat.add_sub_cancel_left, Nat.zero_add]
  by_cases hlow : j < 160
  · simp [hlow, hj]
  · simp [hlow]

/-- Widening a narrowed value keeps the bits in the window and clears the others (R47 item 4). -/
theorem getLsbD_widen160_narrow160 (v : Value) (j : Nat) :
    (widen160 off (narrow160 off v)).getLsbD j = (decide (8 * off ≤ j ∧ j < 8 * off + 160) && v.getLsbD j) := by
  rw [getLsbD_widen160 off _ hoff, getLsbD_narrow160]
  by_cases hw : 8 * off ≤ j ∧ j < 8 * off + 160
  · rw [Nat.add_sub_cancel' hw.1, decide_eq_true (show j - 8 * off < 160 by omega), Bool.true_and]
  · rw [decide_eq_false hw, Bool.false_and, Bool.false_and]

end Window

/-- Widening a narrowed value keeps the bytes in the window and clears the others (R47 item 4). -/
theorem byteAt_widen160_narrow160 (off : Nat) (v : Value) {k : Nat} (hk : k < 32) :
    byteAt (widen160 off (narrow160 off v)) k = if off ≤ k ∧ k < off + 20 then byteAt v k else 0x00#8 := by
  rw [widen160, byteAt_ofBytes _ hk]
  refine if_ctx_congr Iff.rfl (fun hw => ?_) fun _ => rfl
  rw [narrow160, byteAt_ofBytes _ (by omega), if_pos (show k - off < 20 by omega), Nat.add_sub_cancel' hw.1]

theorem window_eq (f : Family) : window f = 12 := by
  cases f <;> rfl

/-- At offset 12 the window ends at bit 255, so the bits kept are those from 96 on (R47 item 4, R57). -/
theorem widen160_narrow160_window (f : Family) (v : Value) :
    widen160 (window f) (narrow160 (window f) v) = copyBits v 96#8 := by
  apply value_eq_of_bits
  intro j hj
  rw [window_eq, getLsbD_widen160_narrow160 (Nat.le_refl 12), getLsbD_copyBits]
  congr 1
  exact decide_eq_decide.mpr ⟨And.left, fun h => ⟨h, hj⟩⟩

/-- COPYB leaves a value as it is exactly where no bit below the start is set (R57). -/
theorem copyBits_eq_self_iff (v : Value) (start : Index) :
    copyBits v start = v ↔ ∀ j < start.toNat, bitAt v j = false := by
  simp only [bitAt_eq_getLsbD]
  refine ⟨fun h j hj => ?_, fun h => value_eq_of_bits fun j _ => ?_⟩
  · rw [← h, getLsbD_copyBits, decide_eq_false (Nat.not_le.mpr hj), Bool.false_and]
  · rw [getLsbD_copyBits]
    by_cases hj : start.toNat ≤ j
    · rw [decide_eq_true hj, Bool.true_and]
    · rw [h j (Nat.lt_of_not_le hj), Bool.and_false]

/-- Settles O23: the laws of the window at every offset up to 12, and at the model's offset through COPYB from 96. -/
theorem windowRoundTrips : Obligations.WindowRoundTrips := by
  refine ⟨fun _ => narrow160_widen160, fun off _ v _ => byteAt_widen160_narrow160 off v,
    fun _ hoff d e => (widen160_eq_iff hoff d e).mp, widen160_narrow160_window, fun f v => ?_, fun f d e =>
    ⟨widen160_ltByNumber_iff (window_le f) d e, widen160_eq_zero256_iff (window_le f) d⟩⟩
  rw [widen160_narrow160_window]
  exact copyBits_eq_self_iff v 96#8

end Sys2Proof.Machine
end

section
/-! PROOFS. Bit access (spec/41_bit_access.md R49 to R54): what is read after setting or clearing a bit and its
consequences, drawn from the 256 bits alone; the effects as OR and AND NOT with the bit's power of two; and the
commands of the unit's bit accessors. -/

namespace Sys2Proof.Machine

/-! ### The bits after setting or clearing one (R54) -/

theorem bitAt_setBit (v : Value) (i j : Index) :
    bitAt (setBit v i) j.toNat = if j = i then true else bitAt v j.toNat := by
  rw [bitAt_eq_getLsbD, getLsbD_setBit, bitAt_eq_getLsbD]
  by_cases h : j = i <;> simp [h, BitVec.toNat_inj]

theorem bitAt_clearBit (v : Value) (i j : Index) :
    bitAt (clearBit v i) j.toNat = if j = i then false else bitAt v j.toNat := by
  rw [bitAt_eq_getLsbD, getLsbD_clearBit, bitAt_eq_getLsbD]
  by_cases h : j = i <;> simp [h, BitVec.toNat_inj]

/-- Two values are equal when the bits at all indices are. -/
theorem value_eq_of_index_bits {a b : Value} (h : ∀ j : Index, bitAt a j.toNat = bitAt b j.toNat) : a = b := by
  refine (value_eq_iff_bitAt a b).mpr fun i hi => ?_
  simpa [Nat.mod_eq_of_lt hi] using h (BitVec.ofNat 8 i)

section Pairs

variable (v : Value) (i : Index)

theorem setBit_setBit : setBit (setBit v i) i = setBit v i :=
  value_eq_of_index_bits fun j => by by_cases h : j = i <;> simp [bitAt_setBit, h]

theorem clearBit_clearBit : clearBit (clearBit v i) i = clearBit v i :=
  value_eq_of_index_bits fun j => by by_cases h : j = i <;> simp [bitAt_clearBit, h]

theorem clearBit_setBit : clearBit (setBit v i) i = clearBit v i :=
  value_eq_of_index_bits fun j => by by_cases h : j = i <;> simp [bitAt_setBit, bitAt_clearBit, h]

theorem setBit_clearBit : setBit (clearBit v i) i = setBit v i :=
  value_eq_of_index_bits fun j => by by_cases h : j = i <;> simp [bitAt_setBit, bitAt_clearBit, h]

/-- Two settings commute, whether or not the indices differ. -/
theorem setBit_comm (j : Index) : setBit (setBit v i) j = setBit (setBit v j) i :=
  value_eq_of_index_bits fun k => by simp only [bitAt_setBit]; split <;> simp

/-- Two clearings commute, whether or not the indices differ. -/
theorem clearBit_comm (j : Index) : clearBit (clearBit v i) j = clearBit (clearBit v j) i :=
  value_eq_of_index_bits fun k => by simp only [bitAt_clearBit]; split <;> simp

/-- A setting and a clearing commute where the indices differ: no bit is written by both. -/
theorem setBit_clearBit_comm {j : Index} (hij : i ≠ j) : setBit (clearBit v i) j = clearBit (setBit v j) i := by
  refine value_eq_of_index_bits fun k => ?_
  rw [bitAt_setBit, bitAt_clearBit, bitAt_clearBit, bitAt_setBit]
  by_cases hi : k = i
  · rw [if_pos hi, if_pos hi, if_neg (hi ▸ hij)]
  · rw [if_neg hi, if_neg hi]

/-- Setting a bit changes nothing exactly where it was set. -/
theorem setBit_eq_self_iff : setBit v i = v ↔ bitAt v i.toNat = true := by
  refine ⟨fun h => ?_, fun h => value_eq_of_index_bits fun j => ?_⟩
  · rw [← h, bitAt_setBit, if_pos rfl]
  · rw [bitAt_setBit]
    split
    next hj => rw [hj, h]
    next => rfl

end Pairs

/-! ### Every value from the zero constant (R54) -/

/-- All 256 indices. -/
def allIndices : List Index := (List.finRange 256).map BitVec.ofFin

theorem mem_allIndices (j : Index) : j ∈ allIndices := List.mem_map.mpr ⟨j.toFin, List.mem_finRange _, rfl⟩

theorem length_allIndices : allIndices.length = 256 := by
  rw [allIndices, List.length_map, List.length_finRange]

/-- The indices of the set bits of a value. -/
def setIndices (v : Value) : List Index := allIndices.filter fun j => bitAt v j.toNat

theorem mem_setIndices {v : Value} {j : Index} : j ∈ setIndices v ↔ bitAt v j.toNat = true := by
  rw [setIndices, List.mem_filter, and_iff_right (mem_allIndices j)]

/-- After settings at the listed indices a bit is set if it was or if its index is listed. -/
theorem bitAt_foldl_setBit (indices : List Index) (v : Value) (j : Index) :
    bitAt (indices.foldl setBit v) j.toNat = true ↔ bitAt v j.toNat = true ∨ j ∈ indices := by
  induction indices generalizing v with
  | nil => simp
  | cons i rest ih =>
    rw [List.foldl_cons, ih, bitAt_setBit, List.mem_cons]
    by_cases h : j = i <;> simp [h]

/-- A value is the zero constant with its set bits set. -/
theorem foldl_setBit_setIndices (v : Value) : (setIndices v).foldl setBit zero256 = v :=
  value_eq_of_index_bits fun j => by
    rw [Bool.eq_iff_iff, bitAt_foldl_setBit, mem_setIndices, bitAt_zero256]
    simp

/-- Settles O29: each law from the bits read after the operations. -/
theorem bitRoundTrip : Obligations.BitRoundTrip := by
  refine ⟨bitAt_setBit, bitAt_clearBit, fun v i => ⟨setBit_setBit v i, clearBit_clearBit v i⟩,
    fun v i => ⟨clearBit_setBit v i, setBit_clearBit v i⟩,
    fun v i j hij => ⟨setBit_comm v i j, clearBit_comm v i j, setBit_clearBit_comm v i hij⟩,
    setBit_eq_self_iff, fun v => ⟨setIndices v, ?_, foldl_setBit_setIndices v⟩⟩
  calc (setIndices v).length ≤ allIndices.length := List.length_filter_le _ _
    _ = 256 := length_allIndices

/-! ### The effects as operations on the whole vector (R50, R51) -/

/-- The power of two at an index has that one bit. -/
theorem getLsbD_one_shiftLeft_index (i : Index) (j : Nat) : (1#256 <<< i.toNat).getLsbD j = decide (j = i.toNat) := by
  rw [← BitVec.twoPow_eq, BitVec.getLsbD_twoPow, decide_eq_true i.isLt, Bool.true_and]
  exact decide_eq_decide.mpr eq_comm

/-- SETBIT's effect is OR with the power of two at the index. -/
theorem setBit_eq_or (v : Value) (i : Index) : setBit v i = v ||| (1#256 <<< i.toNat) :=
  value_eq_of_bits fun j _ => by
    rw [getLsbD_setBit, BitVec.getLsbD_or, getLsbD_one_shiftLeft_index, Bool.or_comm]

/-- CLRBIT's effect is AND with all bits but that at the index. -/
theorem clearBit_eq_and_not (v : Value) (i : Index) : clearBit v i = v &&& ~~~(1#256 <<< i.toNat) :=
  value_eq_of_bits fun j hj => by
    rw [getLsbD_clearBit, BitVec.getLsbD_and, BitVec.getLsbD_not, getLsbD_one_shiftLeft_index, decide_eq_true hj,
      Bool.true_and, Bool.and_comm]

/-- A value with a bit just set is not the zero constant (R50). -/
theorem setBit_ne_zero256 (v : Value) (i : Index) : setBit v i ≠ zero256 := fun h => by
  have hbit := bitAt_setBit v i i
  rw [h, bitAt_zero256, if_pos rfl] at hbit
  cases hbit

/-! ### The commands (R49 to R53) -/

section Commands

variable (s : State) (r : PReg) (i : Index)

/-- What GETBIT and ISRIGHT write, for an index from either source (R49, R52). -/
theorem writesScalar_bitAt :
    WritesScalar (if (s.getP r).getLsbD i.toNat then 0x01#8 else 0x00#8) s
      (s.setSR (boolByte (bitAt (s.getP r) i.toNat))).complete := by
  rw [bitAt_eq_getLsbD]
  exact writesScalar_complete s _

/-- What SETBIT writes, for an index from either source (R50). -/
theorem writesPath_setBit :
    WritesPath r (s.getP r ||| (1#256 <<< i.toNat)) s (s.setP r (setBit (s.getP r) i)).complete ∧
      (s.setP r (setBit (s.getP r) i)).complete.getP r ≠ zero256 := by
  refine ⟨?_, ?_⟩
  · rw [← setBit_eq_or]
    exact writesPath_complete s r _
  · rw [State.setP_complete_getP_same]
    exact setBit_ne_zero256 _ i

/-- What CLRBIT writes, for an index from either source (R51). -/
theorem writesPath_clearBit :
    WritesPath r (s.getP r &&& ~~~(1#256 <<< i.toNat)) s (s.setP r (clearBit (s.getP r) i)).complete := by
  rw [← clearBit_eq_and_not]
  exact writesPath_complete s r _

end Commands

/-- Settles O24: one bit of the register goes to `SR`, at the immediate or at the old `SR`. -/
theorem getbitReadsBit : Obligations.GetbitReadsBit :=
  ⟨encodedAs_row .getbitI, encodedAs_row .getbitX,
    fun rs n s => ⟨_, exec_getbitI s rs n, writesScalar_bitAt s rs n⟩,
    fun rs s => ⟨_, exec_getbitX s rs, writesScalar_bitAt s rs s.sr⟩⟩

/-- Settles O25: the register is written with the OR, at the immediate or at `SR`. -/
theorem setbitSetsBit : Obligations.SetbitSetsBit :=
  ⟨encodedAs_row .setbitI, encodedAs_row .setbitX,
    fun rd n s => ⟨_, exec_setbitI s rd n, writesPath_setBit s rd n⟩,
    fun rd s => ⟨_, exec_setbitX s rd, writesPath_setBit s rd s.sr⟩⟩

/-- Settles O26: the register is written with the AND NOT, at the immediate or at `SR`. -/
theorem clrbitClearsBit : Obligations.ClrbitClearsBit :=
  ⟨encodedAs_row .clrbitI, encodedAs_row .clrbitX,
    fun rd n s => ⟨_, exec_clrbitI s rd n, writesPath_clearBit s rd n⟩,
    fun rd s => ⟨_, exec_clrbitX s rd, writesPath_clearBit s rd s.sr⟩⟩

/-- Settles O27: ISRIGHT's outcome is GETBIT's, and so is what it writes. -/
theorem isrightReadsBit : Obligations.IsrightReadsBit :=
  ⟨encodedAs_row .isrightI, encodedAs_row .isrightX,
    fun rs n s => ⟨(exec_isrightI s rs n).trans (exec_getbitI s rs n).symm, _, exec_isrightI s rs n,
      writesScalar_bitAt s rs n⟩,
    fun rs s => ⟨(exec_isrightX s rs).trans (exec_getbitX s rs).symm, _, exec_isrightX s rs,
      writesScalar_bitAt s rs s.sr⟩⟩

theorem boolByte_eq_one_iff (b : Bool) : boolByte b = 0x01#8 ↔ b = true := by cases b <;> decide

theorem number_eq_zero_iff (v : Value) : number v = 0 ↔ v = zero256 :=
  number_injective.eq_iff' (number_ofNat (Nat.two_pow_pos 256))

/-- The zero constant by its bytes (R12). -/
theorem eq_zero256_iff_byteAt (v : Value) : v = zero256 ↔ ∀ k < 32, byteAt v k = 0x00#8 := by
  simp only [value_eq_iff_byteAt v zero256, byteAt_zero256]

/-- Settles O28: `SR` gets the zero test of the register, whose three forms agree. -/
theorem iszeroTestsZero : Obligations.IszeroTestsZero := by
  refine ⟨encodedAs_row .iszero, fun rs s => ?_⟩
  have hone : boolByte (isZero (s.getP rs)) = 0x01#8 ↔ s.getP rs = zero256 :=
    (boolByte_eq_one_iff _).trans (isZero_iff _)
  exact ⟨_, _, exec_iszero s rs, writesScalar_complete s _, (boolByte_eq_zero_or_one _).symm, hone,
    hone.trans (number_eq_zero_iff _).symm, hone.trans (eq_zero256_iff_byteAt _)⟩

end Sys2Proof.Machine
end

section
/-! PROOFS. Prefixes (spec/42_path.md R57 to R60): COPYB, PARENT and the mask of the bit-field masker all keep the bits
of a value from some position on. That one relation fixes the result, its number and its place in the order. -/

namespace Sys2Proof.Machine

/-! ### Keeping the bits from a position on -/

/-- `w` has the bits of `v` at `n` and above, and zero below. -/
def KeepsFrom (n : Nat) (v w : Value) : Prop := ∀ j, w.getLsbD j = (decide (n ≤ j) && v.getLsbD j)

theorem keepsFrom_copyBits (v : Value) (start : Index) : KeepsFrom start.toNat v (copyBits v start) :=
  getLsbD_copyBits v start

/-- A parent path keeps the bits above the height, so those from `height + 1` on (R58). -/
theorem keepsFrom_parentPath (v : Value) (height : Index) : KeepsFrom (height.toNat + 1) v (parentPath v height) :=
  getLsbD_parentPath v height

theorem keepsFrom_zero256 {n : Nat} (hn : 256 ≤ n) (v : Value) : KeepsFrom n v zero256 := fun j => by
  rw [getLsbD_zero256]
  by_cases hj : n ≤ j
  · rw [BitVec.getLsbD_of_ge v j (hn.trans hj), Bool.and_false]
  · rw [decide_eq_false hj, Bool.false_and]

section KeepsFrom

variable {m n : Nat} {v w x : Value}

theorem KeepsFrom.unique (hw : KeepsFrom n v w) (hx : KeepsFrom n v x) : w = x :=
  value_eq_of_bits fun j _ => (hw j).trans (hx j).symm

/-- Of two cuts the higher decides (R60 item 1). -/
theorem KeepsFrom.trans (hw : KeepsFrom m v w) (hx : KeepsFrom n w x) : KeepsFrom (max m n) v x := fun j => by
  rw [hx j, hw j, ← Bool.and_assoc, ← Bool.decide_and]
  congr 1
  exact decide_eq_decide.mpr (and_comm.trans max_le_iff.symm)

theorem keepsFrom_self_iff : KeepsFrom n v v ↔ ∀ j < n, bitAt v j = false := by
  refine forall_congr' fun j => ?_
  rw [bitAt_eq_getLsbD]
  rcases Nat.lt_or_ge j n with hj | hj
  · simp [hj, Nat.not_le.mpr hj]
  · simp [hj, Nat.not_lt.mpr hj]

/-- Cutting leaves a value as it is exactly where no bit is lost (R60 item 6). -/
theorem KeepsFrom.eq_self_iff (hw : KeepsFrom n v w) : w = v ↔ ∀ j < n, bitAt v j = false := by
  rw [← keepsFrom_self_iff]
  exact ⟨fun h => h ▸ h ▸ hw, hw.unique⟩

/-- Cutting takes the remainder off the number (R57). -/
theorem KeepsFrom.number_eq (hw : KeepsFrom n v w) : number w = number v - number v % 2 ^ n := by
  rw [number_eq_toNat, number_eq_toNat, ← Nat.div_mul_self_eq_mod_sub_self]
  refine Nat.eq_of_testBit_eq fun j => ?_
  rw [Nat.testBit_mul_two_pow, Nat.testBit_div_two_pow, BitVec.testBit_toNat, BitVec.testBit_toNat, hw j]
  by_cases hj : n ≤ j
  · rw [Nat.sub_add_cancel hj]
  · rw [decide_eq_false hj, Bool.false_and, Bool.false_and]

/-- Cutting does not lead above the value (R60 item 6). -/
theorem KeepsFrom.atMost (hw : KeepsFrom n v w) : AtMost w v := by
  have hle : number w ≤ number v := hw.number_eq ▸ Nat.sub_le _ _
  exact hle.lt_or_eq.imp_right fun h => number_injective h

end KeepsFrom

/-! ### COPYB and PARENT (R57, R58) -/

theorem parentPath_255 (v : Value) : parentPath v 255#8 = zero256 :=
  (keepsFrom_parentPath v 255#8).unique (keepsFrom_zero256 (Nat.le_refl 256) v)

/-- Below height 255 a parent path is the copy from the next position on (R58). -/
theorem parentPath_eq_copyBits (v : Value) {height start : Index} (h : start.toNat = height.toNat + 1) :
    parentPath v height = copyBits v start :=
  (keepsFrom_parentPath v height).unique (h ▸ keepsFrom_copyBits v start)

/-- Settles O31: the value written keeps the bits from the start on, which gives its bits and its number. -/
theorem copybKeepsBitsFromStart : Obligations.CopybKeepsBitsFromStart :=
  ⟨encodedAs_row .copybI, encodedAs_row .copybX,
    fun rd rs n s => ⟨_, _, exec_copybI s rd rs n, writesPath_complete s rd _, fun j _ => getLsbD_copyBits _ n j,
      (keepsFrom_copyBits _ n).number_eq⟩,
    fun rd rs s => ⟨_, _, exec_copybX s rd rs, writesPath_complete s rd _, fun j _ => getLsbD_copyBits _ s.sr j,
      (keepsFrom_copyBits _ s.sr).number_eq⟩⟩

/-- Settles O32: the value written is the parent path, in its bits, at height 255 and as a copy. -/
theorem parentKeepsBitsAboveHeight : Obligations.ParentKeepsBitsAboveHeight :=
  ⟨encodedAs_row .parentI, encodedAs_row .parentX,
    fun rd rs n s => ⟨_, _, exec_parentI s rd rs n, writesPath_complete s rd _,
      fun j _ => getLsbD_parentPath _ n j, fun h => h ▸ parentPath_255 _, fun _ => parentPath_eq_copyBits _⟩,
    fun rd rs s => ⟨_, _, exec_parentX s rd rs, writesPath_complete s rd _,
      fun j _ => getLsbD_parentPath _ s.sr j, fun h => h ▸ parentPath_255 _, fun _ => parentPath_eq_copyBits _⟩⟩

/-- Settles O33: two cuts are the cut at the higher position. -/
theorem prefixesCompose : Obligations.PrefixesCompose := by
  refine ⟨copyBits_zero, fun v s t m hm => ?_, fun v h g m hm => ?_⟩
  · have hcut : KeepsFrom m.toNat v (copyBits (copyBits v s) t) :=
      hm ▸ (keepsFrom_copyBits v s).trans (keepsFrom_copyBits _ t)
    exact hcut.unique (keepsFrom_copyBits v m)
  · have hcut : KeepsFrom (m.toNat + 1) v (parentPath (parentPath v h) g) := by
      rw [hm, ← Nat.add_max_add_right]
      exact (keepsFrom_parentPath v h).trans (keepsFrom_parentPath _ g)
    exact hcut.unique (keepsFrom_parentPath v m)

/-- Settles O37: what holds of every cut, at the height plus one and at the start. -/
theorem prefixNotAboveValue : Obligations.PrefixNotAboveValue := by
  refine ⟨fun v h => ⟨(keepsFrom_parentPath v h).atMost, ?_⟩,
    fun v s => ⟨(keepsFrom_copyBits v s).atMost, copyBits_eq_self_iff v s⟩⟩
  simp only [(keepsFrom_parentPath v h).eq_self_iff, Nat.lt_succ_iff]

/-! ### The masker (R59) -/

/-- The bits of one byte of the mask: the positions from `s` on that stand in it. -/
theorem getLsbD_maskByte (s k : Nat) {r : Nat} (hr : r < 8) :
    (maskByte s k).getLsbD r = decide (s ≤ 8 * k + r) := by
  have hones : (0xFF#8).getLsbD r = true := by simpa using getLsbD_ones_shiftLeft 0 r hr
  rw [maskByte]
  split
  next hbelow => rw [decide_eq_false (by omega), BitVec.getLsbD_zero]
  next =>
    split
    next hstart =>
      rw [getLsbD_ones_shiftLeft _ r hr]
      exact decide_eq_decide.mpr (by omega)
    next => rw [hones, decide_eq_true (by omega)]

theorem getLsbD_mask (s : BitVec 9) {j : Nat} (hj : j < 256) : (mask s).getLsbD j = decide (s.toNat ≤ j) := by
  rw [mask, getLsbD_ofBytes, decide_eq_true hj, Bool.true_and, getLsbD_maskByte _ _ (Nat.mod_lt j (by decide)),
    Nat.div_add_mod]

/-- AND with a mask keeps the bits from its position on. -/
theorem keepsFrom_and_mask (v : Value) (s : BitVec 9) : KeepsFrom s.toNat v (v &&& mask s) := fun j => by
  rw [BitVec.getLsbD_and, Bool.and_comm]
  by_cases hj : j < 256
  · rw [getLsbD_mask s hj]
  · rw [BitVec.getLsbD_of_ge v j (Nat.le_of_not_lt hj), Bool.and_false, Bool.and_false]

/-- The nine bits of a start hold it as it is. -/
theorem toNat_setWidth_index (i : Index) : (i.setWidth 9).toNat = i.toNat :=
  BitVec.toNat_setWidth_of_le (by decide)

/-- The 9-bit sum does not wrap at height 255 (R59). -/
theorem toNat_setWidth_index_add_one (i : Index) : (i.setWidth 9 + 1#9).toNat = i.toNat + 1 := by
  have hi : i.toNat < 256 := i.isLt
  rw [BitVec.toNat_add, toNat_setWidth_index]
  exact Nat.mod_eq_of_lt (show i.toNat + 1 < 2 ^ 9 by omega)

/-- Settles O46: the mask's bits, and each AND as the same cut as the function it computes. -/
theorem maskerComputesPrefixes : Obligations.MaskerComputesPrefixes := by
  refine ⟨fun s _ j hj => getLsbD_mask s hj, value_eq_of_bits fun j hj => ?_, fun v start => ?_, fun v height => ?_⟩
  · rw [getLsbD_mask 256#9 hj, getLsbD_zero256]
    exact decide_eq_false (Nat.not_le.mpr hj)
  · have hcut := keepsFrom_and_mask v (start.setWidth 9)
    rw [toNat_setWidth_index] at hcut
    exact hcut.unique (keepsFrom_copyBits v start)
  · have hcut := keepsFrom_and_mask v (height.setWidth 9 + 1#9)
    rw [toNat_setWidth_index_add_one] at hcut
    exact hcut.unique (keepsFrom_parentPath v height)

end Sys2Proof.Machine
end

section
/-! PROOFS. The fork height (spec/42_path.md R55, R60): for two different values it is the highest set bit of their XOR,
and a value has only one highest set bit. From this follow its symmetry, when it is 0, where the parent paths meet, and
that the bit there decides the order. -/

namespace Sys2Proof.Machine

/-! ### The highest set bit of the XOR (R60 items 2 and 3) -/

section HighestSetBit

variable {x : Value} {h k : Index}

theorem HighestSetBit.toNat_le (hh : HighestSetBit x h) (hset : bitAt x k.toNat = true) : k.toNat ≤ h.toNat :=
  Nat.le_of_not_lt fun hlt =>
    Bool.false_ne_true ((hh.2 k.toNat hlt (Nat.le_of_lt_succ k.isLt)).symm.trans hset)

theorem HighestSetBit.unique (hh : HighestSetBit x h) (hk : HighestSetBit x k) : h = k :=
  BitVec.eq_of_toNat_eq (Nat.le_antisymm (hk.toNat_le hh.1) (hh.toNat_le hk.1))

end HighestSetBit

theorem highestSetBit_one_iff (x : Value) : HighestSetBit x 0#8 ↔ x = 1#256 := by
  simp only [HighestSetBit, value_eq_iff_bitAt, bitAt_eq_getLsbD, BitVec.getLsbD_one]
  refine ⟨fun ⟨hset, habove⟩ i hi => ?_, fun h => ⟨h 0 (by decide), fun j hj hj255 => ?_⟩⟩
  · rcases Nat.eq_zero_or_pos i with rfl | hpos
    · exact hset
    · rw [habove i hpos (Nat.le_of_lt_succ hi)]
      simp [hpos.ne']
  · rw [h j (Nat.lt_succ_of_le hj255)]
    simpa using Nat.ne_of_gt hj

variable {a b : Value}

/-- Different values differ at their fork height and agree above it (R55). -/
theorem forkHeight_differs (hne : a ≠ b) :
    a.getLsbD (forkHeight a b).toNat ≠ b.getLsbD (forkHeight a b).toNat ∧
      ∀ j, (forkHeight a b).toNat < j → a.getLsbD j = b.getLsbD j :=
  (forkHeight_spec a b).resolve_right fun h => hne h.1

theorem highestSetBit_xor_forkHeight (hne : a ≠ b) : HighestSetBit (a ^^^ b) (forkHeight a b) := by
  obtain ⟨hdiff, habove⟩ := forkHeight_differs hne
  simp only [HighestSetBit, bitAt_eq_getLsbD, BitVec.getLsbD_xor]
  exact ⟨Bool.xor_iff_ne.mpr hdiff, fun j hj _ => by rw [habove j hj, Bool.xor_self]⟩

/-- The fork height is known by being the highest set bit of the XOR. -/
theorem forkHeight_eq_of_highestSetBit {h : Index} (hh : HighestSetBit (a ^^^ b) h) : forkHeight a b = h := by
  have hne : a ≠ b := by
    rintro rfl
    have hset := hh.1
    rw [BitVec.xor_self, bitAt_eq_getLsbD, BitVec.getLsbD_zero] at hset
    cases hset
  exact (highestSetBit_xor_forkHeight hne).unique hh

theorem forkHeight_self (a : Value) : forkHeight a a = 0#8 :=
  ((forkHeight_spec a a).resolve_left fun h => h.1 rfl).2

theorem forkHeight_comm (a b : Value) : forkHeight a b = forkHeight b a := by
  rcases eq_or_ne a b with rfl | hne
  · rfl
  · refine forkHeight_eq_of_highestSetBit ?_
    rw [BitVec.xor_comm]
    exact highestSetBit_xor_forkHeight hne.symm

/-- Equal values and values that differ at bit 0 alone have fork height 0, and no others (R55 corner case 2). -/
theorem forkHeight_eq_zero_iff (a b : Value) : forkHeight a b = 0#8 ↔ a ^^^ b = 0#256 ∨ a ^^^ b = 1#256 := by
  rcases eq_or_ne a b with rfl | hne
  · exact iff_of_true (forkHeight_self a) (.inl BitVec.xor_self)
  · rw [or_iff_right (mt BitVec.xor_eq_zero_iff.mp hne), ← highestSetBit_one_iff]
    exact ⟨fun h => h ▸ highestSetBit_xor_forkHeight hne, forkHeight_eq_of_highestSetBit⟩

/-- Settles O34: symmetry and the zero case follow from the uniqueness of the highest set bit. -/
theorem forkHeightSymmetricAndZero : Obligations.ForkHeightSymmetricAndZero :=
  ⟨forkHeight_comm, fun _ _ hx => highestSetBit_xor_forkHeight (mt BitVec.xor_eq_zero_iff.mpr hx),
    fun a b hx => (forkHeight_eq_zero_iff a b).mpr (.inl hx), forkHeight_eq_zero_iff⟩

/-- Settles O30: FORKH writes the fork height to `SR`. -/
theorem forkhFindsForkHeight : Obligations.ForkhFindsForkHeight :=
  ⟨encodedAs_row .forkh, fun rs rt s => ⟨_, _, exec_forkh s rs rt, writesScalar_complete s _,
    fun h => (forkHeight_eq_zero_iff _ _).mpr (.inl (BitVec.xor_eq_zero_iff.mpr h)),
    fun h => (forkHeight_eq_zero_iff _ _).mpr (.inr h), forkHeight_differs, _, exec_forkh s rt rs,
    forkHeight_comm _ _⟩⟩

/-! ### Where the parent paths meet (R60 item 4) -/

theorem bitAt_forkHeight_ne (hne : a ≠ b) : bitAt a (forkHeight a b).toNat ≠ bitAt b (forkHeight a b).toNat := by
  simpa only [bitAt_eq_getLsbD] using (forkHeight_differs hne).1

theorem agreeAbove_forkHeight (a b : Value) : AgreeAbove (forkHeight a b) a b := by
  rcases eq_or_ne a b with rfl | hne
  · exact fun _ _ _ => rfl
  · simpa only [AgreeAbove, bitAt_eq_getLsbD] using fun j hj _ => (forkHeight_differs hne).2 j hj

/-- Parent paths at a height are equal exactly where the bits above it agree. -/
theorem parentPath_eq_iff_agreeAbove (a b : Value) (g : Index) :
    parentPath a g = parentPath b g ↔ AgreeAbove g a b := by
  simp only [value_eq_iff_bitAt, AgreeAbove, bitAt_eq_getLsbD, getLsbD_parentPath]
  refine ⟨fun h j hj hj255 => ?_, fun h j hj256 => ?_⟩
  · simpa [hj] using h j (Nat.lt_succ_of_le hj255)
  · by_cases hj : g.toNat < j
    · rw [h j hj (Nat.le_of_lt_succ hj256)]
    · rw [decide_eq_false hj, Bool.false_and, Bool.false_and]

/-- The heights above which two different values agree are those from the fork height on. -/
theorem agreeAbove_iff_forkHeight_le (hne : a ≠ b) (g : Index) :
    AgreeAbove g a b ↔ (forkHeight a b).toNat ≤ g.toNat := by
  refine ⟨fun h => Nat.le_of_not_lt fun hlt => ?_, fun hle j hj => agreeAbove_forkHeight a b j (hle.trans_lt hj)⟩
  exact bitAt_forkHeight_ne hne (h _ hlt (Nat.le_of_lt_succ (forkHeight a b).isLt))

theorem commonAncestor_eq_parentPath_right (a b : Value) : commonAncestor a b = parentPath b (forkHeight a b) :=
  (parentPath_eq_iff_agreeAbove a b _).mpr (agreeAbove_forkHeight a b)

theorem commonAncestor_comm (a b : Value) : commonAncestor a b = commonAncestor b a := by
  rw [commonAncestor_eq_parentPath_right, forkHeight_comm, commonAncestor]

/-- Settles O35: parent paths meet where the values agree above, which is from the fork height on. -/
theorem commonAncestorAtForkHeight : Obligations.CommonAncestorAtForkHeight :=
  ⟨fun a b hne => ⟨bitAt_forkHeight_ne hne, agreeAbove_forkHeight a b⟩,
    fun a b hne g => (parentPath_eq_iff_agreeAbove a b g).trans (agreeAbove_iff_forkHeight_le hne g),
    fun a b => ⟨commonAncestor_comm a b, rfl, commonAncestor_eq_parentPath_right a b⟩,
    fun _ _ _ h => congrArg (parentPath · _) h⟩

/-! ### The order (R60 item 5, R61) -/

/-- The bit form of the order implies its number form. -/
theorem LtByBits.ltByNumber (h : LtByBits a b) : LtByNumber a b := by
  obtain ⟨i, hi, ha, hb, habove⟩ := h
  rw [LtByNumber, number_eq_toNat, number_eq_toNat]
  simp only [bitAt_eq_getLsbD] at ha hb habove
  refine Nat.lt_of_testBit i ha hb fun j hj => ?_
  rw [BitVec.testBit_toNat, BitVec.testBit_toNat]
  by_cases hj255 : j ≤ 255
  · exact habove j hj hj255
  · rw [BitVec.getLsbD_of_ge a j (Nat.lt_of_not_le hj255), BitVec.getLsbD_of_ge b j (Nat.lt_of_not_le hj255)]

/-- The value with 0 at the fork height is below the other. -/
theorem ltByBits_of_bitAt_forkHeight (hne : a ≠ b) (hbit : bitAt a (forkHeight a b).toNat = false) : LtByBits a b := by
  have hb : bitAt b (forkHeight a b).toNat = true :=
    Bool.eq_true_of_not_eq_false fun h => bitAt_forkHeight_ne hne (hbit.trans h.symm)
  exact ⟨_, (forkHeight a b).isLt, hbit, hb, agreeAbove_forkHeight a b⟩

/-- The value with 1 at the fork height is not below the other: the other is below it. -/
theorem bitAt_forkHeight_of_ltByNumber (hne : a ≠ b) (hlt : LtByNumber a b) :
    bitAt a (forkHeight a b).toNat = false := by
  refine Bool.eq_false_of_not_eq_true fun ha => ?_
  have hb : bitAt b (forkHeight b a).toNat = false := by
    rw [forkHeight_comm]
    exact Bool.eq_false_of_not_eq_true fun h => bitAt_forkHeight_ne hne (ha.trans h.symm)
  exact Nat.lt_asymm hlt (ltByBits_of_bitAt_forkHeight hne.symm hb).ltByNumber

/-- Settles O36: bit 0 at the fork height gives the bit form, that the number form, and that the bit again. -/
theorem forkBitDecidesOrder : Obligations.ForkBitDecidesOrder := fun _ _ hne =>
  ⟨⟨bitAt_forkHeight_of_ltByNumber hne, fun h => (ltByBits_of_bitAt_forkHeight hne h).ltByNumber⟩,
    ⟨fun h => bitAt_forkHeight_of_ltByNumber hne h.ltByNumber, ltByBits_of_bitAt_forkHeight hne⟩⟩

end Sys2Proof.Machine
end

section
/-! PROOFS. The scanner's tree (spec/42_path.md R56): the leading-one detector of every width, by induction over its
levels, and the eight-level one on the XOR of two values as the fork height. -/

namespace Sys2Proof.Machine

/-- `p` is the position of the highest set bit of a vector of any width. -/
def IsLeadingOne {w : Nat} (x : BitVec w) (p : Nat) : Prop := x.getLsbD p = true ∧ ∀ j, p < j → x.getLsbD j = false

theorem IsLeadingOne.ne_zero {w : Nat} {x : BitVec w} {p : Nat} (h : IsLeadingOne x p) : x ≠ 0#w := by
  rintro rfl
  exact Bool.false_ne_true (BitVec.getLsbD_zero.symm.trans h.1)

section Halves

variable {m : Nat} (x : BitVec (2 ^ (m + 1)))

/-- `lo`, the less significant half of a segment (R56). -/
def lowHalf : BitVec (2 ^ m) := x.extractLsb' 0 (2 ^ m)

/-- `hi`, the more significant half of a segment (R56). -/
def highHalf : BitVec (2 ^ m) := x.extractLsb' (2 ^ m) (2 ^ m)

theorem getLsbD_halves (j : Nat) :
    x.getLsbD j = if j < 2 ^ m then (lowHalf x).getLsbD j else (highHalf x).getLsbD (j - 2 ^ m) := by
  rw [lowHalf, highHalf, BitVec.getLsbD_extractLsb', BitVec.getLsbD_extractLsb', Nat.zero_add]
  split
  next hlow => rw [decide_eq_true hlow, Bool.true_and]
  next hhigh =>
    rw [Nat.add_sub_cancel' (Nat.le_of_not_lt hhigh)]
    by_cases hj : j < 2 ^ (m + 1)
    · rw [decide_eq_true (by omega), Bool.true_and]
    · rw [BitVec.getLsbD_of_ge x j (Nat.le_of_not_lt hj), Bool.and_false]

/-- One level of the detector (R56). -/
theorem leadingOne_succ : leadingOne (m + 1) x =
    ((leadingOne m (highHalf x)).1 || (leadingOne m (lowHalf x)).1,
      if (leadingOne m (highHalf x)).1 then BitVec.cons true (leadingOne m (highHalf x)).2
      else BitVec.cons false (leadingOne m (lowHalf x)).2) := rfl

variable {x}

theorem isLeadingOne_of_highHalf {p : Nat} (h : IsLeadingOne (highHalf x) p) : IsLeadingOne x (2 ^ m + p) := by
  refine ⟨?_, fun j hj => ?_⟩
  · rw [getLsbD_halves, if_neg (by omega), Nat.add_sub_cancel_left, h.1]
  · rw [getLsbD_halves, if_neg (by omega), h.2 _ (by omega)]

theorem isLeadingOne_of_lowHalf {p : Nat} (hhigh : highHalf x = 0#(2 ^ m)) (h : IsLeadingOne (lowHalf x) p)
    (hp : p < 2 ^ m) : IsLeadingOne x p := by
  refine ⟨?_, fun j hj => ?_⟩
  · rw [getLsbD_halves, if_pos hp, h.1]
  · rw [getLsbD_halves, hhigh, BitVec.getLsbD_zero, h.2 j hj, ite_self]

theorem eq_zero_of_halves (hhigh : highHalf x = 0#(2 ^ m)) (hlow : lowHalf x = 0#(2 ^ m)) : x = 0#(2 ^ (m + 1)) :=
  BitVec.eq_of_getLsbD_eq fun j _ => by
    rw [getLsbD_halves, hhigh, hlow, BitVec.getLsbD_zero, BitVec.getLsbD_zero, BitVec.getLsbD_zero, ite_self]

end Halves

/-- What the detector answers: `any` and the highest set bit, or no `any` and position 0 for zero. -/
theorem leadingOne_spec (m : Nat) (x : BitVec (2 ^ m)) :
    ((leadingOne m x).1 = true ∧ IsLeadingOne x (leadingOne m x).2.toNat) ∨
    ((leadingOne m x).1 = false ∧ x = 0#(2 ^ m) ∧ (leadingOne m x).2 = 0#m) := by
  induction m with
  | zero =>
    cases hx : x.getLsbD 0 with
    | true => exact .inl ⟨hx, hx, fun j hj => BitVec.getLsbD_of_ge x j hj⟩
    | false =>
      refine .inr ⟨hx, BitVec.eq_of_getLsbD_eq fun j hj => ?_, rfl⟩
      rw [Nat.lt_one_iff.mp hj, hx, BitVec.getLsbD_zero]
  | succ m ih =>
    rw [leadingOne_succ]
    rcases ih (highHalf x) with ⟨hany, hlead⟩ | ⟨hany, hhigh, -⟩
    · refine .inl ⟨by simp only [hany, Bool.true_or], ?_⟩
      simpa only [hany, if_true, BitVec.toNat_cons', Bool.toNat_true, Nat.one_shiftLeft] using
        isLeadingOne_of_highHalf hlead
    · rcases ih (lowHalf x) with ⟨hany', hlead⟩ | ⟨hany', hlow, hpos⟩
      · refine .inl ⟨by simp only [hany', Bool.or_true], ?_⟩
        simpa [hany, BitVec.toNat_cons'] using isLeadingOne_of_lowHalf hhigh hlead (BitVec.isLt _)
      · refine .inr ⟨by simp only [hany, hany', Bool.or_false], eq_zero_of_halves hhigh hlow, ?_⟩
        simp [hany, hpos]

/-- The highest set bit of a value (R60 item 2) in the detector's terms. -/
theorem IsLeadingOne.highestSetBit {x : Value} {h : Index} (hlead : IsLeadingOne x h.toNat) : HighestSetBit x h := by
  simp only [HighestSetBit, bitAt_eq_getLsbD]
  exact ⟨hlead.1, fun j hj _ => hlead.2 j hj⟩

theorem scannerTree_eq_forkHeight (a b : Value) : scannerTree a b = forkHeight a b := by
  rcases leadingOne_spec 8 (a ^^^ b) with ⟨-, hlead⟩ | ⟨-, hzero, hpos⟩
  · exact (forkHeight_eq_of_highestSetBit hlead.highestSetBit).symm
  · exact hpos.trans ((forkHeight_eq_zero_iff a b).mpr (.inl hzero)).symm

/-- Settles O45: what the detector answers on every width, and at the eighth level the fork height. -/
theorem scannerTreeComputesForkHeight : Obligations.ScannerTreeComputesForkHeight := by
  refine ⟨fun m x => ?_, scannerTree_eq_forkHeight⟩
  rcases leadingOne_spec m x with ⟨hany, hlead⟩ | ⟨hany, hzero, hpos⟩
  · exact ⟨iff_of_true hany hlead.ne_zero, fun h => absurd h hlead.ne_zero, fun _ => hlead⟩
  · exact ⟨iff_of_false (by simp [hany]) (fun h => h hzero), fun _ => hpos, fun h => absurd hzero h⟩

end Sys2Proof.Machine
end

section
/-! PROOFS. The comparator (spec/43_ordering.md R64). The node is the comparison of a two-digit number from the
comparisons of its digits, and it is associative, so that every bracketing computes what the chain from the most
significant leaf down does; on the leaves of a value that chain compares the numbers. -/

namespace Sys2Proof.Machine

/-! ### The node -/

/-- The three comparisons of two numbers (R62). -/
def compareNumbers (m n : Nat) : Order3 where
  lt := decide (m < n)
  eq := decide (m = n)
  gt := decide (n < m)

/-- The outputs of a comparator over no leaves. -/
def Order3.allEqual : Order3 := compareNumbers 0 0

theorem compareValues_eq_compareNumbers (a b : Value) : compareValues a b = compareNumbers a.toNat b.toNat :=
  compareValues_eq a b

theorem cmpNode_allEqual (h : Order3) : cmpNode h .allEqual = h := by
  simp [cmpNode, Order3.allEqual, compareNumbers]

/-- The node is associative, the more significant segment on the left (R64). -/
theorem cmpNode_assoc (h m l : Order3) : cmpNode (cmpNode h m) l = cmpNode h (cmpNode m l) := by
  simp only [cmpNode, Bool.and_or_distrib_left, Bool.or_assoc, Bool.and_assoc]

theorem compareNumbers_of_lt {m n : Nat} (h : m < n) : compareNumbers m n = ⟨true, false, false⟩ := by
  simp [compareNumbers, h, h.ne, h.not_gt]

theorem compareNumbers_of_gt {m n : Nat} (h : n < m) : compareNumbers m n = ⟨false, false, true⟩ := by
  simp [compareNumbers, h, h.ne', h.not_gt]

/-- The greater high digit makes the greater number. -/
theorem add_mul_lt_add_mul_of_lt {base h₁ h₂ l₁ : Nat} (hl₁ : l₁ < base) (h : h₁ < h₂) (l₂ : Nat) :
    l₁ + base * h₁ < l₂ + base * h₂ :=
  calc l₁ + base * h₁ < base + base * h₁ := Nat.add_lt_add_right hl₁ _
    _ = base * (h₁ + 1) := by rw [Nat.mul_succ, Nat.add_comm]
    _ ≤ base * h₂ := Nat.mul_le_mul_left base h
    _ ≤ l₂ + base * h₂ := Nat.le_add_left _ _

/-- The more significant digit decides unless it is equal (R64). -/
theorem cmpNode_compareNumbers {base l₁ l₂ : Nat} (h₁ h₂ : Nat) (hl₁ : l₁ < base) (hl₂ : l₂ < base) :
    cmpNode (compareNumbers h₁ h₂) (compareNumbers l₁ l₂) =
      compareNumbers (l₁ + base * h₁) (l₂ + base * h₂) := by
  rcases Nat.lt_trichotomy h₁ h₂ with h | rfl | h
  · rw [compareNumbers_of_lt h, compareNumbers_of_lt (add_mul_lt_add_mul_of_lt hl₁ h l₂)]
    rfl
  · simp [cmpNode, compareNumbers]
  · rw [compareNumbers_of_gt h, compareNumbers_of_gt (add_mul_lt_add_mul_of_lt hl₂ h l₁)]
    rfl

/-! ### The chain of leaves -/

/-- The linear chain of nodes over the leaves `n - 1` down to 0 (R64). -/
def cmpChain (cell : Nat → Order3) : Nat → Order3
  | 0     => .allEqual
  | n + 1 => cmpNode (cell n) (cmpChain cell n)

/-- A bracketing in front of `low` is its leaves in front of `low` one by one. -/
theorem Bracketing.cmpNode_eval (cell : Nat → Order3) (b : Bracketing) (low : Order3) :
    cmpNode (b.eval cell) low = b.leaves.foldr (fun k => cmpNode (cell k)) low := by
  induction b generalizing low with
  | leaf k => rfl
  | node h l ihh ihl => rw [Bracketing.eval, Bracketing.leaves, cmpNode_assoc, ihl, ihh, List.foldr_append]

theorem foldr_downFrom_eq_cmpChain (cell : Nat → Order3) (n : Nat) :
    (downFrom n).foldr (fun k => cmpNode (cell k)) .allEqual = cmpChain cell n := by
  induction n with
  | zero => rfl
  | succ n ih => rw [downFrom, List.foldr_cons, ih, cmpChain]

/-- Every bracketing that keeps the order of the leaves computes the chain (R64). -/
theorem Bracketing.eval_eq_cmpChain (cell : Nat → Order3) {b : Bracketing} {n : Nat} (hb : b.leaves = downFrom n) :
    b.eval cell = cmpChain cell n := by
  rw [← cmpNode_allEqual (b.eval cell), b.cmpNode_eval, hb, foldr_downFrom_eq_cmpChain]

/-- The chain answers `lt` where some leaf does and all leaves above it answer `eq`. -/
theorem cmpChain_lt_iff (cell : Nat → Order3) (n : Nat) :
    (cmpChain cell n).lt = true ↔
      ∃ k, k < n ∧ (cell k).lt = true ∧ ∀ m, k < m → m < n → (cell m).eq = true := by
  induction n with
  | zero => exact iff_of_false Bool.false_ne_true (by simp)
  | succ n ih =>
    simp only [cmpChain, cmpNode, Bool.or_eq_true, Bool.and_eq_true, ih]
    constructor
    · rintro (htop | ⟨heq, k, hk, hlt, habove⟩)
      · exact ⟨n, n.lt_succ_self, htop, fun m hm hmn => absurd hmn (Nat.not_lt.mpr hm)⟩
      · refine ⟨k, hk.trans n.lt_succ_self, hlt, fun m hm hmn => ?_⟩
        rcases Nat.lt_succ_iff_lt_or_eq.mp hmn with hlow | rfl
        · exact habove m hm hlow
        · exact heq
    · rintro ⟨k, hk, hlt, habove⟩
      rcases Nat.lt_succ_iff_lt_or_eq.mp hk with hlow | rfl
      · exact .inr ⟨habove n hlow n.lt_succ_self, k, hlow, hlt, fun m hm hmn =>
          habove m hm (hmn.trans n.lt_succ_self)⟩
      · exact .inl hlt

/-- Where the leaves compare the `w`-bit digits of two numbers, the chain compares the numbers. -/
theorem cmpChain_eq_compareNumbers {cell : Nat → Order3} {w a b : Nat}
    (hcell : ∀ k, cell k = compareNumbers (a / 2 ^ (w * k) % 2 ^ w) (b / 2 ^ (w * k) % 2 ^ w)) (n : Nat) :
    cmpChain cell n = compareNumbers (a % 2 ^ (w * n)) (b % 2 ^ (w * n)) := by
  induction n with
  | zero => simp only [cmpChain, Order3.allEqual, Nat.mul_zero, Nat.pow_zero, Nat.mod_one]
  | succ n ih =>
    have hpos : 0 < 2 ^ (w * n) := Nat.two_pow_pos _
    rw [cmpChain, ih, hcell, cmpNode_compareNumbers _ _ (Nat.mod_lt a hpos) (Nat.mod_lt b hpos), ← Nat.mod_mul,
      ← Nat.mod_mul, Nat.mul_succ, Nat.pow_add]

/-! ### The leaves -/

section Leaves

variable (a b : Value)

theorem toNat_byteAt (v : Value) (k : Nat) : (byteAt v k).toNat = v.toNat / 2 ^ (8 * k) % 2 ^ 8 := by
  rw [byteAt, BitVec.extractLsb'_toNat, Nat.shiftRight_eq_div_pow]

theorem toNat_bitAt (v : Value) (i : Nat) : (bitAt v i).toNat = v.toNat / 2 ^ i % 2 := by
  rw [bitAt_eq_getLsbD, ← BitVec.testBit_toNat, Nat.toNat_testBit]

/-- The byte leaf compares two bytes as numbers (R64). -/
theorem cmpLeaf_eq_compareNumbers (k : Nat) :
    cmpLeaf a b k = compareNumbers (byteAt a k).toNat (byteAt b k).toNat := by
  simp only [cmpLeaf, compareNumbers, BitVec.ult, BitVec.toNat_inj, beq_eq_decide]

/-- The one-bit leaf compares two bits as numbers (R64). -/
theorem cmpBitLeaf_eq_compareNumbers (i : Nat) :
    cmpBitLeaf a b i = compareNumbers (bitAt a i).toNat (bitAt b i).toNat := by
  rw [cmpBitLeaf]
  cases bitAt a i <;> cases bitAt b i <;> rfl

/-- Over all the `w`-bit digits of two values the chain compares the values. -/
theorem cmpChain_eq_compareValues {cell : Nat → Order3} {w n : Nat} (hwidth : w * n = 256)
    (hcell : ∀ k, cell k = compareNumbers (a.toNat / 2 ^ (w * k) % 2 ^ w) (b.toNat / 2 ^ (w * k) % 2 ^ w)) :
    cmpChain cell n = compareValues a b := by
  rw [cmpChain_eq_compareNumbers hcell, hwidth, Nat.mod_eq_of_lt a.isLt, Nat.mod_eq_of_lt b.isLt,
    compareValues_eq_compareNumbers]

theorem cmpChain_cmpLeaf : cmpChain (cmpLeaf a b) 32 = compareValues a b :=
  cmpChain_eq_compareValues a b (w := 8) rfl fun k => by
    rw [cmpLeaf_eq_compareNumbers, toNat_byteAt, toNat_byteAt]

theorem cmpChain_cmpBitLeaf : cmpChain (cmpBitLeaf a b) 256 = compareValues a b :=
  cmpChain_eq_compareValues a b (w := 1) rfl fun i => by
    rw [cmpBitLeaf_eq_compareNumbers, toNat_bitAt, toNat_bitAt, Nat.one_mul, Nat.pow_one]

end Leaves

/-- Settles O47: every bracketing computes the chain, and the chain of either kind of leaf compares the numbers. -/
theorem comparatorTreeComputesOrder : Obligations.ComparatorTreeComputesOrder :=
  ⟨fun _ x y hb => (Bracketing.eval_eq_cmpChain _ hb).trans (cmpChain_cmpLeaf x y),
    fun _ x y hb => (Bracketing.eval_eq_cmpChain _ hb).trans (cmpChain_cmpBitLeaf x y),
    fun x y => (Bracketing.eval_eq_cmpChain (b := .balanced 5 0) _ rfl).trans (cmpChain_cmpLeaf x y)⟩

end Sys2Proof.Machine
end

section
/-! PROOFS. The order (spec/43_ordering.md R61 to R63): its three forms are one relation, which inherits the axioms from
the numbers, and CMP reports it in the flags. -/

namespace Sys2Proof.Machine

/-! ### The three forms (R61) -/

section Forms

variable {a b : Value}

theorem LtByNumber.ne (h : LtByNumber a b) : a ≠ b := by
  rintro rfl
  exact Nat.lt_irrefl _ h

theorem ltByBits_iff_ltByNumber : LtByBits a b ↔ LtByNumber a b :=
  ⟨LtByBits.ltByNumber, fun h => ltByBits_of_bitAt_forkHeight h.ne (bitAt_forkHeight_of_ltByNumber h.ne h)⟩

/-- The byte form is what the chain of byte leaves computes (R61, R64). -/
theorem ltByBytes_iff_cmpChain_lt : LtByBytes a b ↔ (cmpChain (cmpLeaf a b) 32).lt = true := by
  simp only [LtByBytes, cmpChain_lt_iff, cmpLeaf, BitVec.ult, decide_eq_true_iff, beq_iff_eq, Nat.lt_succ_iff]

theorem compareValues_lt_iff : (compareValues a b).lt = true ↔ LtByNumber a b := decide_eq_true_iff

theorem compareValues_eq_iff : (compareValues a b).eq = true ↔ a = b :=
  decide_eq_true_iff.trans number_injective.eq_iff

theorem ltByBytes_iff_ltByNumber : LtByBytes a b ↔ LtByNumber a b := by
  rw [ltByBytes_iff_cmpChain_lt, cmpChain_cmpLeaf, compareValues_lt_iff]

/-- The sign of the order: bit 255 is the first position compared (R61). -/
theorem ltByBits_of_bitAt_255 (ha : bitAt a 255 = false) (hb : bitAt b 255 = true) : LtByBits a b :=
  ⟨255, by decide, ha, hb, fun _ hj hj255 => absurd hj255 (Nat.not_le.mpr hj)⟩

end Forms

/-- Settles O42: the bit form by the fork height, the byte form by the chain of byte leaves. -/
theorem orderThreeForms : Obligations.OrderThreeForms :=
  ⟨fun _ _ => ⟨ltByBits_iff_ltByNumber, ltByBytes_iff_ltByNumber⟩, fun _ _ ha hb => ltByBits_of_bitAt_255 hb ha⟩

/-! ### The axioms (R63) -/

section Axioms

variable {a b c : Value}

theorem LtByBits.ne (h : LtByBits a b) : a ≠ b := h.ltByNumber.ne

theorem LtByBits.asymm (h : LtByBits a b) : ¬LtByBits b a := fun h' => Nat.lt_asymm h.ltByNumber h'.ltByNumber

theorem LtByBits.trans (hab : LtByBits a b) (hbc : LtByBits b c) : LtByBits a c :=
  ltByBits_iff_ltByNumber.mpr (Nat.lt_trans hab.ltByNumber hbc.ltByNumber)

theorem ltByBits_trichotomy (a b : Value) : LtByBits a b ∨ a = b ∨ LtByBits b a := by
  rw [ltByBits_iff_ltByNumber, ltByBits_iff_ltByNumber, ← number_injective.eq_iff]
  exact Nat.lt_trichotomy _ _

theorem eq_iff_not_ltByBits (a b : Value) : a = b ↔ ¬LtByBits a b ∧ ¬LtByBits b a :=
  ⟨fun h => ⟨fun hab => hab.ne h, fun hba => hba.ne h.symm⟩,
    fun ⟨hab, hba⟩ => ((ltByBits_trichotomy a b).resolve_left hab).resolve_right hba⟩

end Axioms

/-! ### CMP (R62) -/

/-- What CMP leaves: the paths as they were and `LT` as the order of the operands. -/
theorem exec_cmp_lt {p q : PReg} {s t : State} (h : exec (.cmp p q) s = .next t) :
    SamePaths s t ∧ (t.lt = true ↔ LtByBits (s.getP p) (s.getP q)) := by
  cases h
  have hw := writesFlags_complete s (compareValues (s.getP p) (s.getP q))
  exact ⟨hw.paths, compareValues_lt_iff.trans ltByBits_iff_ltByNumber.symm⟩

/-- `LT` chains through three CMPs, since none of them changes an operand (R63). -/
theorem exec_cmp_lt_trans {p q r : PReg} {s t u w : State} (ht : exec (.cmp p q) s = .next t) (hlt : t.lt = true)
    (hu : exec (.cmp q r) t = .next u) (hlu : u.lt = true) (hw : exec (.cmp p r) u = .next w) : w.lt = true := by
  obtain ⟨hpt, hpq⟩ := exec_cmp_lt ht
  obtain ⟨hpu, hqr⟩ := exec_cmp_lt hu
  have hpq : LtByBits (s.getP p) (s.getP q) := hpq.mp hlt
  have hqr : LtByBits (s.getP q) (s.getP r) := by
    rw [← hpt q, ← hpt r]
    exact hqr.mp hlu
  rw [(exec_cmp_lt hw).2, hpu, hpu, hpt, hpt]
  exact hpq.trans hqr

/-- Swapping the operands swaps `LT` and `GT` and keeps `EQ` (R62). -/
theorem compareValues_swap (a b : Value) :
    (compareValues b a).lt = (compareValues a b).gt ∧ (compareValues b a).eq = (compareValues a b).eq ∧
      (compareValues b a).gt = (compareValues a b).lt :=
  ⟨rfl, decide_eq_decide.mpr eq_comm, rfl⟩

/-- Settles O43: the axioms of the bit form one by one, then what they say of CMP. -/
theorem orderIsStrictTotal : Obligations.OrderIsStrictTotal :=
  ⟨fun _ h => h.ne rfl, fun _ _ _ => LtByBits.trans, ltByBits_trichotomy,
    fun _ _ => ⟨fun h => h.1.ne h.2, fun h => h.1.asymm h.2, fun h => h.2.ne h.1.symm⟩,
    fun a b => ⟨eq_iff_not_ltByBits a b, value_eq_iff_bitAt a b⟩,
    fun rs rt s => ⟨_, exec_cmp s rs rt, oneFlagSet_setCC_compareValues s _ _, compareValues_eq_iff⟩,
    fun _ _ _ _ _ _ _ => exec_cmp_lt_trans⟩

/-- The outputs are the three unsigned comparisons (R62). -/
theorem compareValues_iff (a b : Value) :
    ((compareValues a b).lt = true ↔ a.toNat < b.toNat) ∧ ((compareValues a b).eq = true ↔ a.toNat = b.toNat) ∧
      ((compareValues a b).gt = true ↔ a.toNat > b.toNat) := by
  rw [compareValues_eq]
  exact ⟨decide_eq_true_iff, decide_eq_true_iff, decide_eq_true_iff⟩

/-- Settles O44: the flags are the comparisons of the numbers, one-hot, in `STATUS`, and mirrored by a swap. -/
theorem cmpWritesOrder : Obligations.CmpWritesOrder := by
  refine ⟨encodedAs_row .cmp, fun rs rt s => ?_⟩
  obtain ⟨hlt, heq, hgt⟩ := compareValues_iff (s.getP rs) (s.getP rt)
  exact ⟨_, _, _, _, exec_cmp s rs rt, writesFlags_complete s _, hlt, heq, hgt,
    oneFlagSet_setCC_compareValues s _ _, State.status_flags _, _, exec_cmp s rt rs,
    compareValues_swap (s.getP rs) (s.getP rt)⟩

end Sys2Proof.Machine
end

section
/-! PROOFS. The one exception and the idle step (spec/60_exceptions.md R65, R66, R73): the step of an illegal word as an
equation, the error bit of every command's response, and the frame of the idle step. -/

namespace Sys2Proof.Machine

/-- A presented illegal word raises IllegalCommand on the state that has accepted it (R65). -/
theorem step_of_illegal {s : State} {cw : CmdWord} {din : Value} {rest : List HostEvent}
    (hh : s.host = .command cw din :: rest) (hcw : IllegalCommand cw) :
    step s = .next (s.accept din rest).raiseIllegalCommand :=
  (step_command hh).trans (runCommand_of_illegal hcw (s.accept din rest))

/-- What IllegalCommand leaves does not depend on the data-in value sampled with the word, but for the sample (R65). -/
theorem State.raiseIllegalCommand_accept_of_din (s : State) (din d : Value) (rest : List HostEvent) :
    (s.accept d rest).raiseIllegalCommand = { (s.accept din rest).raiseIllegalCommand with din := d } :=
  rfl

/-- Settles O11: acceptance keeps the architectural state and the exception all of it but `ILL`; the same word with
another data-in value is the same illegal step. -/
theorem illegalCommandEffect : Obligations.IllegalCommandEffect := by
  intro s cw din rest hh hcw
  have harch : SameArch s (s.accept din rest) := s.accept_sameArch din rest
  refine ⟨(s.accept din rest).raiseIllegalCommand, step_of_illegal hh hcw, State.raiseIllegalCommand_ill _,
    fun r => ((s.accept din rest).raiseIllegalCommand_getP r).trans (harch.paths r), harch.sr,
    ⟨harch.flags.lt, harch.flags.eq, harch.flags.gt⟩, s.accept_host din rest, State.raiseIllegalCommand_rsp _,
    State.status_ill _, fun d => ?_⟩
  calc step { s with host := .command cw d :: rest }
    _ = .next (s.accept d rest).raiseIllegalCommand := step_of_illegal rfl hcw
    _ = .next { (s.accept din rest).raiseIllegalCommand with din := d } :=
      congrArg Host.Outcome.next (s.raiseIllegalCommand_accept_of_din din d rest)

/-- The response to a command word has its error bit set exactly where the word is illegal (R66). -/
theorem runCommand_err {cw : CmdWord} {s t : State} (h : runCommand cw s = .next t) :
    ∃ r, t.rsp = some r ∧ (r.err = true ↔ IllegalCommand cw) := by
  rw [illegalCommand_iff_decode_error]
  obtain ⟨i, hd, hi⟩ | ⟨e, hd, rfl⟩ := runCommand_inv h
  · obtain ⟨data, hanswer, -⟩ := exec_answers hi
    exact ⟨_, hanswer, by simp [hd]⟩
  · exact ⟨_, s.raiseIllegalCommand_rsp, by simp [hd]⟩

/-- Settles O13: the error bit of the response, and the list of the rows' words for the words without an error. -/
theorem errExactlyForIllegalWords : Obligations.ErrExactlyForIllegalWords := by
  refine ⟨legalWords, nodup_legalWords, length_legalWords, fun s cw din rest hh => ?_⟩
  obtain ⟨t, ht⟩ := runCommand_completes cw (s.accept din rest)
  obtain ⟨r, hrsp, herr⟩ := runCommand_err ht
  refine ⟨t, r, (step_command hh).trans ht, hrsp, herr, ?_⟩
  rw [mem_legalWords_iff_not_illegalCommand, ← herr, Bool.not_eq_true]

/-- Idling takes the response away and changes no architectural state (R31, R73). -/
theorem State.idle_sameArch (s : State) : SameArch s s.idle :=
  ⟨s.idle_getP, s.idle_sr, ⟨s.idle_lt, s.idle_eq, s.idle_gt⟩, s.idle_ill⟩

/-- Settles O15: the step on the empty list is the idle step. -/
theorem idleHoldsState : Obligations.IdleHoldsState := fun s hh =>
  ⟨s.idle, step_idle hh, s.idle_sameArch, s.idle_rsp, s.idle_host.trans hh⟩

end Sys2Proof.Machine
end

section
/-! PROOFS. Reset at a clock edge and commands in sequence (spec/70_reset_and_hazards.md R74, R77). Of an edge without
reset, acceptance and idling keep the architectural state, and the end of a command keeps `ILL`. FORKH and PARENT are
followed through what each writes and leaves: the second PARENT still finds its operand and the fork height. -/

namespace Sys2Proof.Machine

/-! ### Reset edges (R74) -/

theorem clockEdge_reset {p : PortsIn} (hrst : p.rst = true) (c : Clocked) : clockEdge p c = .next c.afterReset :=
  if_pos hrst

/-- Without reset the ready unit keeps its architectural state at an edge, whether or not it accepts a command. -/
theorem clockEdge_sameArch {p : PortsIn} {c c₁ : Clocked} (hrst : p.rst = false) (hphase : c.phase = .ready)
    (h : clockEdge p c = .next c₁) : SameArch c.unit c₁.unit := by
  obtain ⟨hrst', -⟩ | ⟨cw, t, -, hphase', -, -⟩ | ⟨-, -, -, rfl⟩ | ⟨-, -, -, rfl⟩ := clockEdge_inv h
  · simp [hrst] at hrst'
  · simp [hphase] at hphase'
  · exact c.afterAccept_sameArch p.cmdWord p.cmdData
  · exact c.unit.idle_sameArch

/-- Without reset an edge does not clear `ILL`, in either phase (R18). -/
theorem clockEdge_ill {p : PortsIn} {c c₁ : Clocked} (hrst : p.rst = false) (h : clockEdge p c = .next c₁)
    (hill : c.unit.ill = true) : c₁.unit.ill = true := by
  cases hphase : c.phase with
  | ready => exact (clockEdge_sameArch hrst hphase h).ill.trans hill
  | performing cw =>
    obtain ⟨t, ht⟩ := runCommand_completes cw c.unit
    cases (clockEdge_finish hrst hphase ht).symm.trans h
    exact (runCommand_ill ht).mpr (.inl hill)

/-- Settles O55: what a reset edge leaves and the edge after it, the outputs under reset, the edges without reset. -/
theorem resetEdgeClears : Obligations.ResetEdgeClears :=
  ⟨fun _ c hrst => ⟨c.afterReset, clockEdge_reset hrst c, rfl, State.resetUnit_getP c.unit.host, rfl, rfl, rfl,
      rfl, rfl, rfl, fun _ hq hvalid => ⟨_, clockEdge_accept hq rfl hvalid, rfl⟩⟩,
    fun _ => rfl,
    fun _ _ _ hrst h => ⟨clockEdge_ill hrst h, fun hphase => clockEdge_sameArch hrst hphase h⟩⟩

/-! ### FORKH followed by PARENT (R77) -/

theorem exec_forkh_writesScalar (s : State) (rs rt : PReg) :
    ∃ t, exec (.forkh rs rt) s = .next t ∧ WritesScalar (forkHeight (s.getP rs) (s.getP rt)) s t :=
  ⟨_, exec_forkh s rs rt, writesScalar_complete s _⟩

theorem exec_parentX_writesPath (s : State) (rd rs : PReg) :
    ∃ t, exec (.parentX rd rs) s = .next t ∧ WritesPath rd (parentPath (s.getP rs) s.sr) s t :=
  ⟨_, exec_parentX s rd rs, writesPath_complete s rd _⟩

/-- Settles O38: the first destination is kept by the second PARENT, the second is the parent path of the other operand,
and at the fork height the two parent paths are the common ancestor. -/
theorem forkThenParentsAgree : Obligations.ForkThenParentsAgree := by
  intro rs rt d e s hrt hde
  obtain ⟨t, ht, hfork⟩ := exec_forkh_writesScalar s rs rt
  obtain ⟨u, hu, hfirst⟩ := exec_parentX_writesPath t d rs
  obtain ⟨w, hw, hsecond⟩ := exec_parentX_writesPath u e rt
  have hd : w.getP d = commonAncestor (s.getP rs) (s.getP rt) := calc
    w.getP d = u.getP d := hsecond.others d hde
    _ = parentPath (t.getP rs) t.sr := hfirst.written
    _ = commonAncestor (s.getP rs) (s.getP rt) := by rw [hfork.paths, hfork.written, commonAncestor]
  have he : w.getP e = commonAncestor (s.getP rs) (s.getP rt) := calc
    w.getP e = parentPath (u.getP rt) u.sr := hsecond.written
    _ = parentPath (t.getP rt) t.sr := by rw [hfirst.others rt hrt.symm, hfirst.sr]
    _ = parentPath (s.getP rt) (forkHeight (s.getP rs) (s.getP rt)) := by rw [hfork.paths, hfork.written]
    _ = commonAncestor (s.getP rs) (s.getP rt) := (commonAncestor_eq_parentPath_right _ _).symm
  exact ⟨t, u, w, ht, hu, hw, hd.trans he.symm, hd⟩

end Sys2Proof.Machine
end

section
/-! PROOFS. LD160 and ST160 at the model's window offset 12 (spec/40_construct_convert.md R44, R46): bit 96 is the
window's lowest bit and its highest is bit 255. -/

namespace Sys2Proof.Machine

/-- LD160's bits at offset 12 (R44): the window reaches up to bit 255, so only its start is tested. -/
theorem getLsbD_widen160_window (f : Family) (d : Value) {j : Nat} (hj : j < 256) :
    (widen160 (window f) d).getLsbD j = (decide (96 ≤ j) && d.getLsbD (j - 96)) := by
  rw [getLsbD_widen160 _ d (window_le f), window_eq]
  congr 1
  exact decide_eq_decide.mpr ⟨And.left, fun h => ⟨h, hj⟩⟩

/-- Settles O19: the value written is the widened data-in value, in its bits, as a shift and as a number. -/
theorem ld160WidensDataIn : Obligations.Ld160WidensDataIn := by
  refine ⟨encodedAs_row .ld160, fun f rd s => ⟨_, widen160 (window f) s.din, exec_ld160 s rd f,
    writesPath_complete s rd _, fun j => getLsbD_widen160_window f s.din, ?_, ?_⟩⟩
  · rw [widen160_eq_shiftLeft (window_le f), window_eq]
  · rw [number_widen160 (window_le f), window_eq]

/-- ST160's bits at offset 12 (R46). -/
theorem getLsbD_narrow160_window (f : Family) (v : Value) (j : Nat) :
    (narrow160 (window f) v).getLsbD j = (decide (j < 160) && v.getLsbD (96 + j)) := by
  rw [getLsbD_narrow160, window_eq]

/-- Narrowing at offset 12 is the shift by the 96 bits below the window (R46): above bit 159 the shift reads past the
value's end. -/
theorem narrow160_window_eq_ushiftRight (f : Family) (v : Value) : narrow160 (window f) v = v >>> 96 := by
  apply value_eq_of_bits
  intro j _
  rw [getLsbD_narrow160_window, BitVec.getLsbD_ushiftRight]
  by_cases hj : j < 160
  · rw [decide_eq_true hj, Bool.true_and]
  · rw [decide_eq_false hj, Bool.false_and, BitVec.getLsbD_of_ge v (96 + j) (by omega)]

/-- Settles O21: ST160 only drives the narrowed value on the data-out port. -/
theorem st160NarrowsValue : Obligations.St160NarrowsValue :=
  ⟨encodedAs_row .st160, fun f rs s => ⟨_, _, exec_st160 s rs f, onlyAnswers_respond s _,
    fun j _ => getLsbD_narrow160_window f (s.getP rs) j, narrow160_window_eq_ushiftRight f (s.getP rs)⟩⟩

end Sys2Proof.Machine
end

section
/-! PROOFS. The assembler (spec/30_encoding.md R40): the line of an instruction assembles to it. -/

namespace Sys2Proof.Machine

/-- LD160 cannot tell a data-in value from the 160 bits of its literal (R40, U6). -/
theorem dinAgrees_ld160_literal (f : Family) (rd : PReg) (din : Value) :
    dinAgrees (.ld160 f rd) din ((din.extractLsb' 0 160).setWidth 256) := by
  change din.extractLsb' 0 160 = ((din.extractLsb' 0 160).setWidth 256).extractLsb' 0 160
  rw [← BitVec.setWidth_eq_extractLsb' (by decide), ← BitVec.setWidth_eq_extractLsb' (by decide),
    BitVec.setWidth_setWidth_of_le _ (by decide), BitVec.setWidth_eq]

/-- Settles O57, by the form of the line: the two loads carry the data-in value as their literal, every other command
is presented with 0. -/
theorem assembledLineIsInstruction : Obligations.AssembledLineIsInstruction := by
  intro i din
  cases i with
  | ld256 rd => exact ⟨din, rfl, rfl⟩
  | ld160 f rd => exact ⟨_, rfl, dinAgrees_ld160_literal f rd din⟩
  | _ => exact ⟨0#256, rfl, trivial⟩

end Sys2Proof.Machine
end
